-- ==== Sys2Proof/Word.lean ====
section
/-! DEFINITION. The machine's word, byte and register-index types (spec/00_scope.md R9, spec/10_state.md R21). -/

namespace Sys2Proof

/-- A register value, instruction word, pc value or effective address: 32 bits, arithmetic modulo 2^32 (R9). -/
abbrev Word := BitVec 32

/-- One byte of memory (R32). -/
abbrev Byte := BitVec 8

/-- An unsigned 5-bit index 0 to 31 into the register file (R85). -/
abbrev RegIdx := BitVec 5

/-- The raw 16-bit immediate field, bits 15 to 0 of a word (R81). -/
abbrev Imm16 := BitVec 16

end Sys2Proof
end

