-- ==== Sys2Proof/Config.lean ====
section
/-! DEFINITION. The implementation parameters of spec/00_scope.md R7. The spec leaves none of them to the model, and it
leaves no value free (spec/70_reset_and_hazards.md R235), so this file holds no opaque constant. -/

namespace Sys2Proof.Config

/-- MEM_SIZE: the memory holds 4096 bytes, at addresses 0 to 4095 (R7, R32). UNVERIFIED literal, log entry 15. -/
abbrev memSize : Nat := 4096

/-- NREG: 32 general registers (R7, R21). -/
abbrev nRegs : Nat := 32

/-- A word is four bytes, the only access width (R7, R55). -/
abbrev wordBytes : Nat := 4

/-- The longest program image, in words (R7, R232). -/
abbrev maxImageWords : Nat := 1024

end Sys2Proof.Config
end

