-- ==== Sys2Proof/Syntax.lean ====
section
/-! DEFINITION. The instructions: one constructor for each row of spec/opcode_table.json. A word that no row matches is
unrecognized (spec/30_encoding.md R88); it is no instruction of the table, and the cycle gives it its no-effect meaning. -/

namespace Sys2Proof

/-- The instructions of spec/30_encoding.md R87, operands in the order of R92. The register fields are 5-bit indices
(R85), the immediates the raw 16-bit fields (R81). ADD and SUB carry the shamt bits, which the decoder produces (R81)
and no operation reads (R89), so that an instruction keeps every bit of its word. -/
inductive Instr where
  /-- The halt sentinel, the all-zero word (spec/40_cycle.md R114). -/
  | halt
  /-- `ADD rd, rs, rt` (spec/41_alu.md R151). -/
  | add (rd rs rt : RegIdx) (shamt : BitVec 5)
  /-- `SUB rd, rs, rt` (R152). -/
  | sub (rd rs rt : RegIdx) (shamt : BitVec 5)
  /-- `ADDI rt, rs, imm` (R153). -/
  | addi (rt rs : RegIdx) (imm : Imm16)
  /-- `BEQ rs, rt, imm` (spec/42_branch.md R170). -/
  | beq (rs rt : RegIdx) (imm : Imm16)
  /-- `LW rt, imm(rs)` (spec/43_load_store.md R181). -/
  | lw (rt rs : RegIdx) (imm : Imm16)
  /-- `SW rt, imm(rs)` (R182). -/
  | sw (rt rs : RegIdx) (imm : Imm16)
deriving DecidableEq, Repr

end Sys2Proof
end

