-- ==== Sys2Proof/WellFormed.lean ====
section
/-! DEFINITION. Which terms are well formed.

INSTRUCTIONS. The field types of Instr are exactly the field widths of spec/30_encoding.md R81, and the spec makes no value
of a field illegal: every register index 0 to 31 may stand in every register field (R85), every 16-bit immediate is used
(R84), and shamt is not examined (R89). So no term of Instr is ill formed and there is no instruction check to fail; an
assembler's operands, which are numbers that may be out of range, are checked here before they become fields.

PROGRAM IMAGES. An image has at most 1024 words (spec/70_reset_and_hazards.md R232). -/

namespace Sys2Proof

/-- A register named by number `R<n>` exists (R21, R85). -/
def regNumberOk (n : Nat) : Bool := decide (n < Config.nRegs)

/-- A signed immediate that the 16-bit field holds (R84). -/
def immValueOk (v : Int) : Bool := decide (-32768 ≤ v ∧ v ≤ 32767)

/-- A program image the launch interface takes whole (R232: `0 <= n <= 1024`). -/
def imageOk (image : List Word) : Bool := decide (image.length ≤ Config.maxImageWords)

/-- The register field of `R<n>`, where that register exists. -/
def regField (n : Nat) : Option RegIdx := if regNumberOk n then some (BitVec.ofNat 5 n) else none

/-- The immediate field of a signed value, where it fits (R92: `imm & 0xFFFF`). -/
def immField (v : Int) : Option Imm16 := if immValueOk v then some (BitVec.ofInt 16 v) else none

end Sys2Proof
end

