-- ==== Sys2Proof/Decode.lean ====
section
/-! DEFINITION. The instruction decoder and, after it, the encoder (spec/30_encoding.md R80 to R93, spec/40_cycle.md
R116 and R117). The opcode and function-code literals stand here once (spec/91_not_in_source.md N9). -/

namespace Sys2Proof

/-! ## Bytes and words -/

/-- Four bytes composed big-endian: the first is bits 31 to 24 (spec/20_memory.md R52, R54). -/
def wordOfBytes (b0 b1 b2 b3 : Byte) : Word := b0 ++ b1 ++ b2 ++ b3

/-- Byte `k` of a word in memory order, `k` from 0 to 3: byte 0 is bits 31 to 24 (R53). -/
def byteOfWord (w : Word) (k : Nat) : Byte := w.extractLsb' (8 * (3 - k)) 8

/-- The four bytes of a word, the one of the lowest address first (R53). -/
def bytesOfWord (w : Word) : List Byte := [byteOfWord w 0, byteOfWord w 1, byteOfWord w 2, byteOfWord w 3]

/-! ## The opcode map's literals (R87; UNVERIFIED literals, log entry 15) -/

abbrev opcodeRType : BitVec 6 := 0
abbrev opcodeAddi : BitVec 6 := 8
abbrev opcodeBeq : BitVec 6 := 4
abbrev opcodeLw : BitVec 6 := 35
abbrev opcodeSw : BitVec 6 := 43
abbrev functAdd : BitVec 6 := 0x20
abbrev functSub : BitVec 6 := 0x22

/-- The halt sentinel word (spec/40_cycle.md R114). -/
abbrev haltWord : Word := 0

/-- One row of the opcode map (R87): a word matches it when `(word & mask) == match`. -/
structure OpcodeRow where
  mnemonic : String
  matchBits : Word
  mask : Word
deriving DecidableEq, Repr

/-- A word matches a row (R87). -/
def OpcodeRow.matchesWord (r : OpcodeRow) (w : Word) : Bool := w &&& r.mask == r.matchBits

def rowHalt : OpcodeRow := ⟨"HALT", 0x00000000, 0xFFFFFFFF⟩
def rowAdd : OpcodeRow := ⟨"ADD", 0x00000020, 0xFC00003F⟩
def rowSub : OpcodeRow := ⟨"SUB", 0x00000022, 0xFC00003F⟩
def rowAddi : OpcodeRow := ⟨"ADDI", 0x20000000, 0xFC000000⟩
def rowBeq : OpcodeRow := ⟨"BEQ", 0x10000000, 0xFC000000⟩
def rowLw : OpcodeRow := ⟨"LW", 0x8C000000, 0xFC000000⟩
def rowSw : OpcodeRow := ⟨"SW", 0xAC000000, 0xFC000000⟩

/-- The opcode map of R87, the sentinel row first. -/
def opcodeMap : List OpcodeRow := [rowHalt, rowAdd, rowSub, rowAddi, rowBeq, rowLw, rowSw]

/-- The row of the opcode map that an instruction stands for. -/
def rowOf : Instr → OpcodeRow
  | .halt => rowHalt
  | .add _ _ _ _ => rowAdd
  | .sub _ _ _ _ => rowSub
  | .addi _ _ _ => rowAddi
  | .beq _ _ _ => rowBeq
  | .lw _ _ _ => rowLw
  | .sw _ _ _ => rowSw

/-! ## The decoder -/

/-- The seven fields of every word (R81). `imm` is the raw field; its sign extension is an operand form. -/
structure Fields where
  opcode : BitVec 6
  rs : RegIdx
  rt : RegIdx
  rd : RegIdx
  shamt : BitVec 5
  funct : BitVec 6
  imm : Imm16
deriving DecidableEq, Repr

/-- The bit-field extractor (R81, spec/40_cycle.md R116): a pure function of the word. -/
def fieldsOf (w : Word) : Fields where
  opcode := w.extractLsb' 26 6
  rs := w.extractLsb' 21 5
  rt := w.extractLsb' 16 5
  rd := w.extractLsb' 11 5
  shamt := w.extractLsb' 6 5
  funct := w.extractLsb' 0 6
  imm := w.extractLsb' 0 16

/-- Why a word or a byte string is no instruction of the opcode table, by name. -/
inductive DecodeReject where
  /-- Opcode 0 with a funct other than 0x20 and 0x22, the word not all zero (R88): a legal no-effect word. -/
  | unrecognizedFunct (funct : BitVec 6)
  /-- An opcode outside 0, 4, 8, 35 and 43 (R88): a legal no-effect word. -/
  | unrecognizedOpcode (opcode : BitVec 6)
  /-- Fewer than four bytes: no whole word (R80). DESIGN CHOICE, log entry 17; the machine itself never meets it. -/
  | truncated (bytes : Nat)
deriving DecidableEq, Repr

/-- Execute's dispatch (spec/40_cycle.md R117): by opcode, and for opcode 0 by funct. -/
def dispatchFields (f : Fields) : Except DecodeReject Instr :=
  if f.opcode = opcodeRType then
    if f.funct = functAdd then .ok (.add f.rd f.rs f.rt f.shamt)
    else if f.funct = functSub then .ok (.sub f.rd f.rs f.rt f.shamt)
    else .error (.unrecognizedFunct f.funct)
  else if f.opcode = opcodeAddi then .ok (.addi f.rt f.rs f.imm)
  else if f.opcode = opcodeBeq then .ok (.beq f.rs f.rt f.imm)
  else if f.opcode = opcodeLw then .ok (.lw f.rt f.rs f.imm)
  else if f.opcode = opcodeSw then .ok (.sw f.rt f.rs f.imm)
  else .error (.unrecognizedOpcode f.opcode)

/-- Decoding a word (R86): the whole word against the sentinel first, then the dispatch. -/
def decodeWord (w : Word) : Except DecodeReject Instr :=
  if w = haltWord then .ok .halt else dispatchFields (fieldsOf w)

/-- Decoding the bytes of memory, lowest address first: the instruction and the bytes after it (R54, R80). -/
def decodeBytes : List Byte → Except DecodeReject (Instr × List Byte)
  | b0 :: b1 :: b2 :: b3 :: rest =>
    match decodeWord (wordOfBytes b0 b1 b2 b3) with
    | .ok i => .ok (i, rest)
    | .error e => .error e
  | bytes => .error (.truncated bytes.length)

/-- The word whose low `nbits` bits are `w`, every bit above them 0 (the numbering of spec/opcode_table.json). -/
def tableWord (nbits w : Nat) : Word := BitVec.ofNat 32 (w % 2 ^ nbits)

/-- The instruction the decoder reads from a row's word, laid out big-endian as memory holds it. -/
def decodeTableWord (nbits w : Nat) : Option Instr :=
  match decodeBytes (bytesOfWord (tableWord nbits w)) with
  | .ok (i, _) => some i
  | .error _ => none

/-! ## The encoder -/

/-- An R-format word (R82). -/
def encodeR (rs rt rd : RegIdx) (shamt : BitVec 5) (funct : BitVec 6) : Word :=
  opcodeRType ++ rs ++ rt ++ rd ++ shamt ++ funct

/-- An I-format word (R83). -/
def encodeI (opcode : BitVec 6) (rs rt : RegIdx) (imm : Imm16) : Word :=
  opcode ++ rs ++ rt ++ imm

/-- The word of an instruction (R87, R92). -/
def encode : Instr → Word
  | .halt => haltWord
  | .add rd rs rt shamt => encodeR rs rt rd shamt functAdd
  | .sub rd rs rt shamt => encodeR rs rt rd shamt functSub
  | .addi rt rs imm => encodeI opcodeAddi rs rt imm
  | .beq rs rt imm => encodeI opcodeBeq rs rt imm
  | .lw rt rs imm => encodeI opcodeLw rs rt imm
  | .sw rt rs imm => encodeI opcodeSw rs rt imm

/-- The bytes of an instruction, the one of the lowest address first. -/
def encodeBytes (i : Instr) : List Byte := bytesOfWord (encode i)

/-! ## The spec's pseudo-instructions, each the expansion R93 shows -/

/-- `NOP` is `ADD R0, R0, R0` (R93). -/
def pseudoNop : Instr := .add 0 0 0 0

/-- `LI rt, imm` is `ADDI rt, R0, imm`, for a 16-bit signed value (R93). -/
def pseudoLi (rt : RegIdx) (imm : Int) : Option Instr := (immField imm).map fun v => .addi rt 0 v

/-- `MOVE rd, rs` is `ADD rd, rs, R0` (R93). -/
def pseudoMove (rd rs : RegIdx) : Instr := .add rd rs 0 0

/-- `B imm` is `BEQ R0, R0, imm` (R93). -/
def pseudoB (imm : Imm16) : Instr := .beq 0 0 imm

end Sys2Proof
end

