-- ==== Sys2Proof/Machine/State.lean ====
section
/-! DEFINITION. The machine's state: the record of spec/10_state.md R20, whole, as plain data; the reasons a step can stop;
and the state after reset (R36). -/

namespace Sys2Proof.Machine

/-- Memory: (address, byte) pairs, addresses strictly rising, no pair holding the byte an unlisted address reads as
(`Memory.wf`). -/
abbrev Memory := List Host.Cell

/-- The two kinds of data access that can raise the model fault (spec/60_exceptions.md R201). -/
inductive AccessKind where
  | load
  | store
deriving DecidableEq, Repr

/-- What `MemFault` records (R201): the access kind, the effective address, the instruction's address and its word. -/
structure MemFaultInfo where
  kind : AccessKind
  ea : Word
  instrAddr : Word
  instrWord : Word
deriving DecidableEq, Repr

/-- The two normal stops (spec/40_cycle.md R112, R114, R122). -/
inductive HaltReason where
  | sentinel
  | bound
deriving DecidableEq, Repr

/-- The run status (spec/10_state.md R20, spec/40_cycle.md R122). The halts are final states; `faulted` is not. -/
inductive RunStatus where
  | running
  | halted (why : HaltReason)
  | faulted (info : MemFaultInfo)
deriving DecidableEq, Repr

/-- The pending-effect latch L (spec/10_state.md R34). -/
structure Latch where
  regWrite : Bool
  dest : RegIdx
  result : Word
  memRead : Bool
  memWrite : Bool
  addr : Word
  data : Word
deriving DecidableEq, Repr

/-- The state of the machine (R20). The latch is kept from cycle to cycle as Execute left it: DESIGN CHOICE, log entry 1;
nothing reads a field of it that the same cycle did not write (R35). -/
structure State where
  /-- The register file as stored; reads go through `readReg`, which gives 0 for index 0 (R21, R22). -/
  regs : Vector Word Config.nRegs
  /-- The program counter, 32 bits (R26). -/
  pc : Word
  /-- The 4096 bytes of memory (R32). -/
  mem : Memory
  /-- The cycle counter, an unbounded natural number (R33). -/
  cycles : Nat
  /-- The pending-effect latch (R34). -/
  latch : Latch
  /-- The run status (R20). -/
  status : RunStatus
deriving DecidableEq, Repr

/-- Why a step gives no next state. Both are answered by `step` alone, of a machine that has stopped already: a state
whose status is not Running has no step (spec/40_cycle.md R121). -/
inductive Fault where
  /-- Raised by `step` at a state whose status is Halted: the run ended normally (R122) and nothing wakes the core
  (spec/60_exceptions.md R213). SAFE: the spec says this state has no step. -/
  | halted (why : HaltReason)
  /-- Raised by `step` at a state whose status is Faulted: an LW or SW left the memory, and the machine takes no further
  step (spec/60_exceptions.md R201). SAFE: no claim about a later state can be proved. -/
  | memFault (info : MemFaultInfo)
deriving DecidableEq, Repr

/-- Why an instruction has no meaning in the model. -/
inductive Refusal where
  /-- Raised by `exec` for an instruction that the model gives no meaning yet; no arm answers it. SAFE: nothing can be
  proved of a run that meets it. -/
  | notModelled (mnemonic : String)
deriving DecidableEq, Repr

/-- The outcome of a step or of an instruction. -/
abbrev Result := Host.Outcome State Fault Refusal

/-- The latch at reset. The spec calls its fields "not defined at reset" and "unspecified" (R36): DESIGN CHOICE, all
zero, log entry 2. -/
def Latch.reset : Latch where
  regWrite := false
  dest := 0
  result := 0
  memRead := false
  memWrite := false
  addr := 0
  data := 0

/-- The machine right after reset (spec/10_state.md R36, spec/70_reset_and_hazards.md R230). -/
def State.reset : State where
  regs := Vector.replicate Config.nRegs 0
  pc := 0
  mem := []
  cycles := 0
  latch := Latch.reset
  status := .running

end Sys2Proof.Machine
end

