-- ==== Sys2Proof/Machine/Alu.lean ====
section
/-! DEFINITION. The arithmetic operations of the ALU (spec/41_alu.md R150). -/

namespace Sys2Proof.Machine

/-- `alu_add(a, b) = a + b` modulo 2^32 (R150): ADD, ADDI, the effective address and the branch target. -/
def aluAdd (a b : Word) : Word := a + b

/-- `alu_sub(a, b) = a - b` modulo 2^32 (R150): SUB. -/
def aluSub (a b : Word) : Word := a - b

end Sys2Proof.Machine
end

