-- ==== Sys2Proof/Machine/Operands.lean ====
section
/-! DEFINITION. Every operand form: register reads, the sign-extended immediate, the branch offset and target, the
effective address (spec/10_state.md R22, spec/30_encoding.md R84 and R85, spec/42_branch.md R170, spec/43_load_store.md
R180). There is no other operand form (R85). -/

namespace Sys2Proof.Machine

/-- `x[i]`: 0 for index 0, the stored value for any other index (R22). -/
def readReg (s : State) (i : RegIdx) : Word :=
  if i = 0 then 0 else s.regs[i.toNat]'i.isLt

/-- `sext_32(instr[15:0])` (R10, R84). -/
def immediate (imm : Imm16) : Word := imm.signExtend 32

/-- `sext_32(imm) << 2`, the offset of BEQ (R84). -/
def branchOffset (imm : Imm16) : Word := immediate imm <<< 2

/-- The target of a taken BEQ, from P, the pc after Fetch (R170, R171). -/
def branchTarget (p : Word) (imm : Imm16) : Word := aluAdd p (branchOffset imm)

/-- `EA = x[rs] + sext_32(imm)`, modulo 2^32 (R180). -/
def effectiveAddress (s : State) (rs : RegIdx) (imm : Imm16) : Word :=
  aluAdd (readReg s rs) (immediate imm)

end Sys2Proof.Machine
end

