-- ==== Sys2Proof/Machine/Ops.lean ====
section
/-! DEFINITION. The named operations over memory, the latch, the pc and the status: the memory primitives (spec/20_memory.md
R52, R53), the phases of a cycle (spec/40_cycle.md R112 to R120) and the one fault the spec has, MemFault
(spec/60_exceptions.md R201). The hardware takes no exception and returns from none (R200, R205, R206), so there is no
exception entry or return beside `raiseMemFault`. -/

namespace Sys2Proof.Machine

/-! ## Memory -/

/-- What an address that memory does not list reads as: the reset value 0x00 (spec/10_state.md R36). -/
abbrev unlistedByte : Byte := 0

/-- The byte at an address. -/
def Memory.read : Memory → Nat → Byte
  | [], _ => unlistedByte
  | (k, v) :: m, a => if a = k then v else Memory.read m a

/-- Memory with nothing listed at an address. -/
def Memory.erase (m : Memory) (a : Nat) : Memory := m.filter fun c => c.1 ≠ a

/-- Memory with a pair put before the first pair of a higher address. -/
def Memory.insert : Memory → Nat → Byte → Memory
  | [], a, b => [(a, b)]
  | (k, v) :: m, a, b => if a < k then (a, b) :: (k, v) :: m else (k, v) :: Memory.insert m a b

/-- Memory with the byte at an address written; a byte that unlisted addresses read as is not listed. -/
def Memory.write (m : Memory) (a : Nat) (b : Byte) : Memory :=
  if b = unlistedByte then m.erase a else (m.erase a).insert a b

/-- The canonical form: addresses strictly rising, each in the 4096 bytes (R32), no unlisted byte listed. -/
abbrev Memory.wf (m : Memory) : Prop :=
  m.Pairwise (fun c d => c.1 < d.1) ∧ ∀ c ∈ m, c.1 < Config.memSize ∧ c.2 ≠ unlistedByte

/-- `MemRead(a, 4)`: four bytes, big-endian (R52). Its callers check the bound first. -/
def Memory.readWord (m : Memory) (a : Nat) : Word :=
  wordOfBytes (m.read a) (m.read (a + 1)) (m.read (a + 2)) (m.read (a + 3))

/-- `MemWrite(a, 4, v)`: four bytes, big-endian (R53). Its callers check the bound first. -/
def Memory.writeWord (m : Memory) (a : Nat) (v : Word) : Memory :=
  (((m.write a (byteOfWord v 0)).write (a + 1) (byteOfWord v 1)).write (a + 2) (byteOfWord v 2)).write (a + 3) (byteOfWord v 3)

/-- A word access at `a` is in bounds: `unsigned(a) + 3 < 4096` in mathematical integers, that is `unsigned(a) <= 4092`
(spec/00_scope.md R13, spec/40_cycle.md R112, spec/43_load_store.md R180). -/
def inBounds (a : Word) : Bool := decide (a.toNat + 3 < Config.memSize)

/-! ## The cycle driver's and the fetch unit's operations -/

/-- The word Fetch reads (R113). -/
def fetchWord (s : State) : Word := s.mem.readWord s.pc.toNat

/-- Fetch's unconditional advance of the pc by 4, modulo 2^32 (R113). -/
def advancePc (s : State) : State := { s with pc := s.pc + 4 }

/-- The cycle-counter increment (R115). -/
def countCycle (s : State) : State := { s with cycles := s.cycles + 1 }

/-- `pc <- target` (spec/10_state.md R26). -/
def setPc (target : Word) (s : State) : State := { s with pc := target }

/-- One of the two normal stops (R112, R114). -/
def haltMachine (why : HaltReason) (s : State) : State := { s with status := .halted why }

/-- `raise MemFault(info)`: the run stops in Faulted and nothing else changes (spec/60_exceptions.md R201). -/
def raiseMemFault (info : MemFaultInfo) (s : State) : State := { s with status := .faulted info }

/-! ## The latch -/

/-- Execute's start: the three flags cleared, the other fields as they were (R117, spec/10_state.md R35). -/
def clearLatchFlags (s : State) : State :=
  { s with latch := { s.latch with regWrite := false, memRead := false, memWrite := false } }

/-- An arithmetic arm's latch: `result`, `dest` and the register-write flag (spec/41_alu.md R151 to R153). -/
def latchResult (dest : RegIdx) (result : Word) (s : State) : State :=
  { s with latch := { s.latch with result := result, dest := dest, regWrite := true } }

/-- LW's latch (spec/43_load_store.md R181). -/
def latchLoad (dest : RegIdx) (addr : Word) (s : State) : State :=
  { s with latch := { s.latch with addr := addr, result := addr, memRead := true, dest := dest, regWrite := true } }

/-- SW's latch (R182). -/
def latchStore (addr data : Word) (s : State) : State :=
  { s with latch := { s.latch with addr := addr, data := data, memWrite := true, regWrite := false } }

/-- `L.result <- v` (R119). -/
def latchLoaded (v : Word) (s : State) : State := { s with latch := { s.latch with result := v } }

/-! ## Memory Access and Write-Back -/

/-- What `MemFault` records for an access of the instruction whose word is `w`: `pc` is already past it (R201). -/
def memFaultInfo (kind : AccessKind) (w : Word) (s : State) : MemFaultInfo where
  kind := kind
  ea := s.latch.addr
  instrAddr := s.pc - 4
  instrWord := w

/-- The latched read of Memory Access (R119). -/
def loadAccess (w : Word) (s : State) : Except MemFaultInfo State :=
  if s.latch.memRead then
    if inBounds s.latch.addr then .ok (latchLoaded (s.mem.readWord s.latch.addr.toNat) s)
    else .error (memFaultInfo .load w s)
  else .ok s

/-- The latched write of Memory Access (R119). -/
def storeAccess (w : Word) (s : State) : Except MemFaultInfo State :=
  if s.latch.memWrite then
    if inBounds s.latch.addr then .ok { s with mem := s.mem.writeWord s.latch.addr.toNat s.latch.data }
    else .error (memFaultInfo .store w s)
  else .ok s

/-- Memory Access: the latched read, then the latched write (R119). No instruction sets both flags (log entry 14). -/
def memoryAccess (w : Word) (s : State) : Except MemFaultInfo State :=
  match loadAccess w s with
  | .ok s' => storeAccess w s'
  | .error info => .error info

/-- The one write of the register file: index 0 is discarded and forced to 0 (R120, spec/10_state.md R23). -/
def writeReg (i : RegIdx) (v : Word) (s : State) : State :=
  { s with regs := s.regs.set i.toNat (if i = 0 then 0 else v) i.isLt }

/-- Write-Back (R120). -/
def writeBack (s : State) : State :=
  if s.latch.regWrite then writeReg s.latch.dest s.latch.result s else s

/-- The rest of a cycle after Execute: Memory Access, then Write-Back; a raise ends the cycle at once (R119 to R121). -/
def completeCycle (w : Word) (s : State) : Result :=
  match memoryAccess w s with
  | .ok s' => .next (writeBack s')
  | .error info => .next (raiseMemFault info s)

end Sys2Proof.Machine
end

