-- ==== Sys2Proof/Machine/Arith.lean ====
section
/-! DEFINITION. ADD, SUB and ADDI (spec/41_alu.md). A meaning acts on the state after Fetch and the count, where `pc` is P
(spec/10_state.md R26; log entry 5). -/

namespace Sys2Proof.Machine

/-- ADD (R151). shamt is not examined (spec/30_encoding.md R89). -/
def execAdd (rd rs rt : RegIdx) (shamt : BitVec 5) (s : State) : Result :=
  completeCycle (encode (.add rd rs rt shamt))
    (latchResult rd (aluAdd (readReg s rs) (readReg s rt)) (clearLatchFlags s))

/-- SUB (R152): `rs` is the minuend, `rt` the subtrahend. -/
def execSub (rd rs rt : RegIdx) (shamt : BitVec 5) (s : State) : Result :=
  completeCycle (encode (.sub rd rs rt shamt))
    (latchResult rd (aluSub (readReg s rs) (readReg s rt)) (clearLatchFlags s))

/-- ADDI (R153). -/
def execAddi (rt rs : RegIdx) (imm : Imm16) (s : State) : Result :=
  completeCycle (encode (.addi rt rs imm))
    (latchResult rt (aluAdd (readReg s rs) (immediate imm)) (clearLatchFlags s))

end Sys2Proof.Machine
end

