-- ==== Sys2Proof/Machine/Flags.lean ====
section
/-! DEFINITION. Conditions. The hardware has no status flag, condition code or predicate, and ADD, SUB and ADDI record no
carry and no overflow (spec/10_state.md R29, spec/41_alu.md R150, R154). The one condition any instruction tests is the
ALU's equality, which BEQ uses at once and stores nowhere. -/

namespace Sys2Proof.Machine

/-- `alu_eq(a, b)`: equality on all 32 bits (R150). -/
def aluEq (a b : Word) : Bool := a == b

end Sys2Proof.Machine
end

