-- ==== Sys2Proof/Machine/Branch.lean ====
section
/-! DEFINITION. BEQ (spec/42_branch.md). -/

namespace Sys2Proof.Machine

/-- BEQ (R170): a taken branch writes `P + (sext(imm) << 2)` to the pc in its own cycle; otherwise the pc keeps P. A target
out of bounds is written as it is (R175). -/
def execBeq (rs rt : RegIdx) (imm : Imm16) (s : State) : Result :=
  completeCycle (encode (.beq rs rt imm))
    (if aluEq (readReg s rs) (readReg s rt) then setPc (branchTarget s.pc imm) (clearLatchFlags s)
     else clearLatchFlags s)

end Sys2Proof.Machine
end

