-- ==== Sys2Proof/Machine/Control.lean ====
section
/-! DEFINITION. The halt sentinel and the unrecognized words (spec/40_cycle.md R114, R118). -/

namespace Sys2Proof.Machine

/-- The halt sentinel (R114): the machine stops with status Halted(Sentinel); Execute, Memory Access and Write-Back do not
run, and the pc keeps Fetch's advance. -/
def execHalt (s : State) : Result := .next (haltMachine .sentinel s)

/-- A word that no row of the opcode map matches (R118, spec/30_encoding.md R88): Execute sets no latch flag, so Memory
Access and Write-Back do nothing. `s` is the state after Fetch and the count. -/
def execUnrecognized (w : Word) (s : State) : Result := completeCycle w (clearLatchFlags s)

end Sys2Proof.Machine
end

