-- ==== Sys2Proof/Machine/LoadStore.lean ====
section
/-! DEFINITION. LW and SW (spec/43_load_store.md). -/

namespace Sys2Proof.Machine

/-- LW (R181). Out of bounds it raises MemFault(Load) in Memory Access, whatever `rt` is. -/
def execLw (rt rs : RegIdx) (imm : Imm16) (s : State) : Result :=
  completeCycle (encode (.lw rt rs imm)) (latchLoad rt (effectiveAddress s rs imm) (clearLatchFlags s))

/-- SW (R182). Out of bounds it raises MemFault(Store) in Memory Access and writes no byte. -/
def execSw (rt rs : RegIdx) (imm : Imm16) (s : State) : Result :=
  completeCycle (encode (.sw rt rs imm)) (latchStore (effectiveAddress s rs imm) (readReg s rt) (clearLatchFlags s))

end Sys2Proof.Machine
end

