-- ==== Sys2Proof/Machine/Cycle.lean ====
section
/-! DEFINITION. The cycle driver (spec/40_cycle.md R111 to R118, R121) and the program load of the launch interface
(spec/70_reset_and_hazards.md R232). -/

namespace Sys2Proof.Machine

/-- What the driver does before an instruction's own arm: the halt sentinel is found before the count, and every other word
is counted (R114, R115). -/
def beforeExecute (i : Instr) (s : State) : State :=
  match i with
  | .halt => s
  | _ => countCycle s

/-- The rest of a cycle from the fetched word, on the state after Fetch (R114 to R120). -/
def runWord (w : Word) (s : State) : Result :=
  match decodeWord w with
  | .ok i => exec i (beforeExecute i s)
  | .error _ => execUnrecognized w (countCycle s)

/-- One cycle of a running machine: the bound check, Fetch, then the fetched word (R112, R113, R121). -/
def driverCycle (s : State) : Result :=
  if inBounds s.pc then runWord (fetchWord s) (advancePc s)
  else .next (haltMachine .bound s)

/-! ## The program load -/

/-- The words of an image written from an address on; it stops silently where a word would pass the last 4 bytes (R232). -/
def loadWords : List Word → Nat → Memory → Memory
  | [], _, m => m
  | w :: ws, a, m =>
    if a + 3 < Config.memSize then loadWords ws (a + Config.wordBytes) (m.writeWord a w) else m

/-- The program load, from address 0 (R232). -/
def loadImage (image : List Word) (s : State) : State := { s with mem := loadWords image 0 s.mem }

/-- Reset, then the program load: the state in which a run begins (R233). -/
def launch (image : List Word) : State := loadImage image State.reset

/-! ## Placing one instruction for the host -/

/-- A pc from which Fetch can run: the pc itself where it is in bounds, the entry point 0 where it is not. -/
def fetchablePc (s : State) : Word := if inBounds s.pc then s.pc else 0

/-- A running machine with a word stored at the address it fetches next (log entry 10). -/
def placeFetchWord (w : Word) (s : State) : State :=
  { s with
    status := .running
    pc := fetchablePc s
    mem := s.mem.writeWord (fetchablePc s).toNat w }

end Sys2Proof.Machine
end

