-- ==== Sys2Proof/Machine/Step.lean ====
section
/-! DEFINITION. One step of the machine is one cycle (spec/00_scope.md R12, spec/40_cycle.md R121). -/

namespace Sys2Proof.Machine

/-- One step (R121). A state whose status is not Running has no step: the fault says why it stopped (log entries 3, 4). -/
def step (s : State) : Host.Outcome State Fault Refusal :=
  match s.status with
  | .running => driverCycle s
  | .halted why => .fault (.halted why)
  | .faulted info => .fault (.memFault info)

/-- `s` with the instruction whose bits are `w` placed where the very next step fetches it (log entry 10). -/
def State.withFetchWord (s : State) (nbits w : Nat) : State := placeFetchWord (tableWord nbits w) s

end Sys2Proof.Machine
end

