-- ==== Sys2Proof/Safety.lean ====
section
/-! DEFINITION. Runs, the end of a run, and what a good state is, in the terms the statements use
(spec/40_cycle.md R122, spec/10_state.md R24 and R28). -/

namespace Sys2Proof.Machine

/-- `t` is reached from `s` in exactly `k` steps. -/
def reachesIn : Nat → State → State → Prop
  | 0, s, t => s = t
  | k + 1, s, t => ∃ u, step s = .next u ∧ reachesIn k u t

/-- A state some run reaches: reset, the load of some program image, then steps (spec/70_reset_and_hazards.md R233). -/
def Reachable (s : State) : Prop := ∃ image k, reachesIn k (launch image) s

/-- A final state: one of the two normal stops (R122). A Faulted state is not final. -/
abbrev State.final (s : State) : Prop := s.status = .halted .sentinel ∨ s.status = .halted .bound

/-- A run is safe when none of its states is Faulted (R122: a claim about a program must show that no run reaches it). -/
def SafeRun (s : State) : Prop := ∀ k t info, reachesIn k s t → t.status ≠ .faulted info

/-- What a status says of the rest of the state: a bound halt stands at a pc out of bounds (R112); a sentinel halt stands
just past an all-zero word (R114); a fault names the LW or SW just passed, out of bounds (spec/60_exceptions.md R201). -/
def State.statusOk (s : State) : Prop :=
  match s.status with
  | .running => True
  | .halted .bound => inBounds s.pc = false
  | .halted .sentinel => inBounds (s.pc - 4) = true ∧ s.mem.readWord (s.pc - 4).toNat = 0
  | .faulted info =>
    inBounds info.ea = false ∧ info.instrAddr = s.pc - 4 ∧ inBounds info.instrAddr = true ∧
      s.mem.readWord info.instrAddr.toNat = info.instrWord

/-- The invariant of the machine: register 0 holds zero (spec/10_state.md R24), the pc is a multiple of 4 (R28), memory is
in canonical form, and the status tells the truth. -/
structure State.Inv (s : State) : Prop where
  regZero : s.regs[0] = 0
  pcAligned : s.pc.toNat % 4 = 0
  memWf : s.mem.wf
  statusOk : s.statusOk

end Sys2Proof.Machine
end

