-- ==== Sys2Proof/Certificates/Slice0/Obligations.lean ====
section
/-! DEFINITION. The statements for the provers, each `def Obligations.<Name> : Prop`, after the few shared forms they are
written with. A meaning `exec i s` acts on the state after Fetch, and for every word but the halt sentinel after the count
(log entry 5): there `s.pc` is P, the address of the instruction plus 4 (spec/10_state.md R26). -/

namespace Sys2Proof.Claims

open Sys2Proof.Machine

/-- Every byte of memory reads as before. -/
def MemorySame (s t : State) : Prop := ∀ a, t.mem.read a = s.mem.read a

/-- Every register of the file, as stored, is as before. -/
def RegistersSame (s t : State) : Prop := ∀ r : RegIdx, t.regs[r.toNat]'r.isLt = s.regs[r.toNat]'r.isLt

/-- Every register of the file but one, as stored, is as before. -/
def RegistersSameBut (d : RegIdx) (s t : State) : Prop :=
  ∀ r : RegIdx, r ≠ d → t.regs[r.toNat]'r.isLt = s.regs[r.toNat]'r.isLt

/-- Register `d` now reads `v`; where `d` is register 0 the write is discarded: the register reads 0 and is stored as 0
(spec/40_cycle.md R120). -/
def RegisterWritten (d : RegIdx) (v : Word) (t : State) : Prop :=
  readReg t d = (if d = 0 then 0 else v) ∧ (d = 0 → t.regs[0] = 0)

/-- The pc, the cycle counter and the status are as before. -/
def ControlSame (s t : State) : Prop := t.pc = s.pc ∧ t.cycles = s.cycles ∧ t.status = s.status

/-- The three flags of the latch (spec/10_state.md R34). -/
def LatchFlags (regWrite memRead memWrite : Bool) (t : State) : Prop :=
  t.latch.regWrite = regWrite ∧ t.latch.memRead = memRead ∧ t.latch.memWrite = memWrite

/-- What an arithmetic instruction's arm latches (spec/41_alu.md R151 to R153). -/
def ResultLatched (d : RegIdx) (v : Word) (t : State) : Prop :=
  LatchFlags true false false t ∧ t.latch.dest = d ∧ t.latch.result = v

/-- The part of the frame that is the model's own choice (log entry 1): a latch field that the instruction's arm in the
spec does not write stays as it was. -/
def LatchFieldsKept : Instr → Latch → Latch → Prop
  | .halt, l, l' => l' = l
  | .add _ _ _ _, l, l' => l'.addr = l.addr ∧ l'.data = l.data
  | .sub _ _ _ _, l, l' => l'.addr = l.addr ∧ l'.data = l.data
  | .addi _ _ _, l, l' => l'.addr = l.addr ∧ l'.data = l.data
  | .beq _ _ _, l, l' => l'.dest = l.dest ∧ l'.result = l.result ∧ l'.addr = l.addr ∧ l'.data = l.data
  | .lw _ _ _, l, l' => l'.data = l.data
  | .sw _ _ _, l, l' => l'.dest = l.dest ∧ l'.result = l.result

/-- What ADD, SUB and ADDI do: the result written to the destination, and nothing else but the latch. -/
def WritesOnlyResult (d : RegIdx) (v : Word) (s t : State) : Prop :=
  RegisterWritten d v t ∧ RegistersSameBut d s t ∧ MemorySame s t ∧ ControlSame s t ∧ ResultLatched d v t

/-- `MemFault`: the status records the access, the instruction's address and its word; no register and no byte of memory
changes, the pc and the cycle counter are kept (spec/60_exceptions.md R201). -/
def StopsInMemFault (kind : AccessKind) (ea w : Word) (s t : State) : Prop :=
  t.status = .faulted { kind := kind, ea := ea, instrAddr := s.pc - 4, instrWord := w } ∧
    RegistersSame s t ∧ MemorySame s t ∧ t.pc = s.pc ∧ t.cycles = s.cycles

/-- The register an instruction writes back, for those that write one (spec/10_state.md R23). -/
def destOf : Instr → Option RegIdx
  | .halt => none
  | .add rd _ _ _ => some rd
  | .sub rd _ _ _ => some rd
  | .addi rt _ _ => some rt
  | .beq _ _ _ => none
  | .lw rt _ _ => some rt
  | .sw _ _ _ => none

/-- A word that Execute's dispatch does not recognize, said on its bits (spec/30_encoding.md R88): opcode 0, a funct other
than 0x20 and 0x22 and the word not all zero; or an opcode outside 0, 4, 8, 35 and 43. -/
def Unrecognized (w : Word) : Prop :=
  let opcode := w.toNat / 2 ^ 26
  let funct := w.toNat % 2 ^ 6
  (opcode = 0 ∧ funct ≠ 0x20 ∧ funct ≠ 0x22 ∧ w ≠ 0) ∨
    (opcode ≠ 0 ∧ opcode ≠ 4 ∧ opcode ≠ 8 ∧ opcode ≠ 35 ∧ opcode ≠ 43)

end Sys2Proof.Claims

open Sys2Proof Sys2Proof.Machine Sys2Proof.Claims

/-! ## Arithmetic (spec/41_alu.md) -/

/-- The ALU's three operations (R150): sums and differences modulo 2^32, the difference also as `a + ~b + 1`; equality on
all 32 bits; and (R154) the sum and difference are the low 32 bits of the exact signed results. -/
def Obligations.AluWrapsExactResults : Prop :=
  ∀ a b : Word,
    (aluAdd a b).toNat = (a.toNat + b.toNat) % 2 ^ 32 ∧
    (aluSub a b).toNat = (a.toNat + 2 ^ 32 - b.toNat) % 2 ^ 32 ∧
    aluSub a b = a + ~~~b + 1 ∧
    aluAdd a b = BitVec.ofInt 32 (a.toInt + b.toInt) ∧
    aluSub a b = BitVec.ofInt 32 (a.toInt - b.toInt) ∧
    (aluEq a b = true ↔ ∀ i, i < 32 → a.getLsbD i = b.getLsbD i)

/-- ADD (R151), whole: every word with opcode 0 and funct 0x20 is an ADD of its rs, rt and rd fields, whatever its shamt;
and it writes the sum modulo 2^32 to rd (nothing, for rd = 0) and changes nothing else. -/
def Obligations.AddWritesWrappedSum : Prop :=
  (∀ w : Word, w &&& 0xFC00003F = 0x00000020 →
    decodeWord w = .ok (.add (w.extractLsb' 11 5) (w.extractLsb' 21 5) (w.extractLsb' 16 5) (w.extractLsb' 6 5))) ∧
  ∀ (rd rs rt : RegIdx) (shamt : BitVec 5) (s : State),
    ∃ t, exec (.add rd rs rt shamt) s = .next t ∧ WritesOnlyResult rd (readReg s rs + readReg s rt) s t

/-- SUB (R152), whole: every word with opcode 0 and funct 0x22; rs is the minuend and rt the subtrahend. -/
def Obligations.SubWritesWrappedDifference : Prop :=
  (∀ w : Word, w &&& 0xFC00003F = 0x00000022 →
    decodeWord w = .ok (.sub (w.extractLsb' 11 5) (w.extractLsb' 21 5) (w.extractLsb' 16 5) (w.extractLsb' 6 5))) ∧
  ∀ (rd rs rt : RegIdx) (shamt : BitVec 5) (s : State),
    ∃ t, exec (.sub rd rs rt shamt) s = .next t ∧ WritesOnlyResult rd (readReg s rs - readReg s rt) s t

/-- ADDI (R153), whole: every word with opcode 8; the immediate is sign-extended. -/
def Obligations.AddiWritesSumWithImmediate : Prop :=
  (∀ w : Word, w &&& 0xFC000000 = 0x20000000 →
    decodeWord w = .ok (.addi (w.extractLsb' 16 5) (w.extractLsb' 21 5) (w.extractLsb' 0 16))) ∧
  ∀ (rt rs : RegIdx) (imm : Imm16) (s : State),
    ∃ t, exec (.addi rt rs imm) s = .next t ∧ WritesOnlyResult rt (readReg s rs + BitVec.ofInt 32 imm.toInt) s t

/-! ## Control transfer (spec/42_branch.md) -/

/-- BEQ (R170): equal registers set the pc to `P + (sext(imm) << 2)`, unequal ones leave it at P; no register, no byte of
memory, no counter and no status changes; the latch flags are clear. The sum modulo 2^32 is the spec's own
decision D3 (log entry 8). -/
def Obligations.BeqWritesOnlyThePc : Prop :=
  (∀ w : Word, w &&& 0xFC000000 = 0x10000000 →
    decodeWord w = .ok (.beq (w.extractLsb' 21 5) (w.extractLsb' 16 5) (w.extractLsb' 0 16))) ∧
  ∀ (rs rt : RegIdx) (imm : Imm16) (s : State),
    ∃ t, exec (.beq rs rt imm) s = .next t ∧
      t.pc = (if readReg s rs = readReg s rt then s.pc + BitVec.ofInt 32 (4 * imm.toInt) else s.pc) ∧
      RegistersSame s t ∧ MemorySame s t ∧ t.cycles = s.cycles ∧ t.status = s.status ∧
      LatchFlags false false false t

/-- The branch target's base is the pc after Fetch (R171): a step at a taken BEQ goes to the BEQ's own address plus 4 plus
4 times the signed immediate, modulo 2^32, in that one step. -/
def Obligations.TakenBranchIsRelativeToThePcAfterFetch : Prop :=
  ∀ (s : State) (rs rt : RegIdx) (imm : Imm16),
    s.status = .running → s.pc.toNat ≤ 4092 → decodeWord (fetchWord s) = .ok (.beq rs rt imm) →
    readReg s rs = readReg s rt →
    ∃ t, step s = .next t ∧ t.pc = BitVec.ofInt 32 ((s.pc.toNat : Int) + 4 + 4 * imm.toInt) ∧ t.status = .running

/-- Every branch target is a multiple of 4 whenever P is (R174, an inference of the spec). -/
def Obligations.BranchTargetStaysAligned : Prop :=
  ∀ (p : Word) (imm : Imm16), p.toNat % 4 = 0 → (branchTarget p imm).toNat % 4 = 0

/-! ## Loads and stores (spec/43_load_store.md, spec/20_memory.md) -/

/-- The bound check on the effective address modulo 2^32 holds exactly when the exact signed sum lies in 0 to 4092 (R180, a
proof the spec gives as its own inference). -/
def Obligations.EffectiveAddressInBoundsExactly : Prop :=
  ∀ (s : State) (rs : RegIdx) (imm : Imm16),
    inBounds (effectiveAddress s rs imm) = true ↔
      0 ≤ (readReg s rs).toInt + imm.toInt ∧ (readReg s rs).toInt + imm.toInt ≤ 4092

/-- LW (R181) at any effective address up to 4092, aligned or not (R56): the four bytes there, big-endian, are written to
rt (nothing for rt = 0); no other register and no byte of memory changes. The base is read before the write. -/
def Obligations.LwLoadsBigEndianWord : Prop :=
  (∀ w : Word, w &&& 0xFC000000 = 0x8C000000 →
    decodeWord w = .ok (.lw (w.extractLsb' 16 5) (w.extractLsb' 21 5) (w.extractLsb' 0 16))) ∧
  ∀ (rt rs : RegIdx) (imm : Imm16) (s : State),
    (effectiveAddress s rs imm).toNat ≤ 4092 →
    let ea := (effectiveAddress s rs imm).toNat
    let v : Word := s.mem.read ea ++ s.mem.read (ea + 1) ++ s.mem.read (ea + 2) ++ s.mem.read (ea + 3)
    ∃ t, exec (.lw rt rs imm) s = .next t ∧ RegisterWritten rt v t ∧ RegistersSameBut rt s t ∧ MemorySame s t ∧
      ControlSame s t ∧
      LatchFlags true true false t ∧ t.latch.dest = rt ∧ t.latch.result = v ∧ t.latch.addr = effectiveAddress s rs imm

/-- LW past 4092 stops in MemFault(Load), whatever rt is, and writes nothing (R57, R181, R201: the spec's decision D1). -/
def Obligations.LwOutOfBoundsFaults : Prop :=
  ∀ (rt rs : RegIdx) (imm : Imm16) (s : State),
    4092 < (effectiveAddress s rs imm).toNat →
    let ea := effectiveAddress s rs imm
    ∃ t, exec (.lw rt rs imm) s = .next t ∧ StopsInMemFault .load ea (encode (.lw rt rs imm)) s t ∧
      LatchFlags true true false t ∧ t.latch.dest = rt ∧ t.latch.result = ea ∧ t.latch.addr = ea

/-- SW (R182) at any effective address up to 4092, aligned or not (R56): the four bytes from that address on are x[rt],
big-endian; every other byte of memory, every register, the pc, the counter and the status are as before. -/
def Obligations.SwStoresBigEndianWord : Prop :=
  (∀ w : Word, w &&& 0xFC000000 = 0xAC000000 →
    decodeWord w = .ok (.sw (w.extractLsb' 16 5) (w.extractLsb' 21 5) (w.extractLsb' 0 16))) ∧
  ∀ (rt rs : RegIdx) (imm : Imm16) (s : State),
    (effectiveAddress s rs imm).toNat ≤ 4092 →
    let ea := (effectiveAddress s rs imm).toNat
    let v := readReg s rt
    ∃ t, exec (.sw rt rs imm) s = .next t ∧
      t.mem.read ea = v.extractLsb' 24 8 ∧ t.mem.read (ea + 1) = v.extractLsb' 16 8 ∧
      t.mem.read (ea + 2) = v.extractLsb' 8 8 ∧ t.mem.read (ea + 3) = v.extractLsb' 0 8 ∧
      (∀ a, ¬ (ea ≤ a ∧ a < ea + 4) → t.mem.read a = s.mem.read a) ∧
      RegistersSame s t ∧ ControlSame s t ∧
      LatchFlags false false true t ∧ t.latch.addr = effectiveAddress s rs imm ∧ t.latch.data = v

/-- SW past 4092 stops in MemFault(Store), and writes no byte (R57, R182, R201: the spec's decision D1). -/
def Obligations.SwOutOfBoundsFaults : Prop :=
  ∀ (rt rs : RegIdx) (imm : Imm16) (s : State),
    4092 < (effectiveAddress s rs imm).toNat →
    let ea := effectiveAddress s rs imm
    ∃ t, exec (.sw rt rs imm) s = .next t ∧ StopsInMemFault .store ea (encode (.sw rt rs imm)) s t ∧
      LatchFlags false false true t ∧ t.latch.addr = ea ∧ t.latch.data = readReg s rt

/-- A store followed by a load of the same address gives exactly the value stored, at every address in bounds and whatever
registers address it (R183, an inference of the spec). -/
def Obligations.StoreThenLoadRoundTrips : Prop :=
  ∀ (s t : State) (rt rs : RegIdx) (imm : Imm16) (rt' rs' : RegIdx) (imm' : Imm16),
    (effectiveAddress s rs imm).toNat ≤ 4092 → exec (.sw rt rs imm) s = .next t →
    effectiveAddress t rs' imm' = effectiveAddress s rs imm →
    ∃ u, exec (.lw rt' rs' imm') t = .next u ∧ RegisterWritten rt' (readReg s rt) u

/-- A fetch at the address stored to sees the store (R68, an inference of the spec): the word fetched is the word stored, and
where it is zero the machine, running there, halts on it. -/
def Obligations.LaterFetchSeesStore : Prop :=
  ∀ (s t : State) (rt rs : RegIdx) (imm : Imm16),
    (effectiveAddress s rs imm).toNat ≤ 4092 → exec (.sw rt rs imm) s = .next t →
    ∀ u : State, u.mem = t.mem → u.pc = effectiveAddress s rs imm →
      fetchWord u = readReg s rt ∧
      (readReg s rt = 0 → u.status = .running →
        ∃ h, step u = .next h ∧ h.status = .halted .sentinel ∧ h.pc = u.pc + 4)

/-- MemWrite (R53): SW checks the bound first and otherwise writes no byte; in bounds the four bytes are written big-endian
and no other byte changes. -/
def Obligations.MemWriteIsBigEndian : Prop :=
  (∀ (m : Memory) (a k : Nat) (v : Word), a ≤ 4092 →
    (m.writeWord a v).read k =
      if k = a then v.extractLsb' 24 8 else if k = a + 1 then v.extractLsb' 16 8
      else if k = a + 2 then v.extractLsb' 8 8 else if k = a + 3 then v.extractLsb' 0 8 else m.read k) ∧
  ∀ (rt rs : RegIdx) (imm : Imm16) (s : State),
    4092 < (effectiveAddress s rs imm).toNat → ∃ t, exec (.sw rt rs imm) s = .next t ∧ MemorySame s t

/-- Memory in canonical form is determined by its bytes: equal memories are equal data. This is a law of the model's own
representation (log entry 9) of the 4096 bytes of R32. -/
def Obligations.CanonicalMemoryIsDeterminedByItsBytes : Prop :=
  ∀ m n : Memory, m.wf → n.wf → (∀ a, m.read a = n.read a) → m = n

/-! ## Encoding (spec/30_encoding.md) -/

/-- The decoder's seven fields are the bits R81 names, and the immediate is the sign extension of bits 15 to 0. -/
def Obligations.DecodedFieldsAreTheWordsBits : Prop :=
  ∀ w : Word,
    (fieldsOf w).opcode.toNat = w.toNat / 2 ^ 26 ∧
    (fieldsOf w).rs.toNat = w.toNat / 2 ^ 21 % 2 ^ 5 ∧
    (fieldsOf w).rt.toNat = w.toNat / 2 ^ 16 % 2 ^ 5 ∧
    (fieldsOf w).rd.toNat = w.toNat / 2 ^ 11 % 2 ^ 5 ∧
    (fieldsOf w).shamt.toNat = w.toNat / 2 ^ 6 % 2 ^ 5 ∧
    (fieldsOf w).funct.toNat = w.toNat % 2 ^ 6 ∧
    (immediate (fieldsOf w).imm).toInt =
      (if w.toNat % 2 ^ 16 < 2 ^ 15 then ((w.toNat % 2 ^ 16 : Nat) : Int) else ((w.toNat % 2 ^ 16 : Nat) : Int) - 2 ^ 16)

/-- The immediate and the branch offset (R84): the sign extension lies in -32768 to 32767; the offset is four times it, is
the sign extension of the field with two zero bits below it, and lies in -131072 to 131068. -/
def Obligations.ImmediateAndBranchOffsetRanges : Prop :=
  ∀ imm : Imm16,
    (immediate imm).toInt = imm.toInt ∧ -32768 ≤ (immediate imm).toInt ∧ (immediate imm).toInt ≤ 32767 ∧
    (branchOffset imm).toInt = 4 * imm.toInt ∧
    branchOffset imm = (imm ++ 0#2).signExtend 32 ∧
    -131072 ≤ (branchOffset imm).toInt ∧ (branchOffset imm).toInt ≤ 131068

/-- The opcode map (R87), row by row: a word decodes to an instruction of a row exactly when `(word & mask) == match`, and
the sentinel row shares no word with the ADD and SUB rows. -/
def Obligations.DecodeFollowsTheOpcodeMap : Prop :=
  ∀ w : Word,
    (decodeWord w = .ok .halt ↔ w &&& 0xFFFFFFFF = 0x00000000) ∧
    ((∃ rd rs rt shamt, decodeWord w = .ok (.add rd rs rt shamt)) ↔ w &&& 0xFC00003F = 0x00000020) ∧
    ((∃ rd rs rt shamt, decodeWord w = .ok (.sub rd rs rt shamt)) ↔ w &&& 0xFC00003F = 0x00000022) ∧
    ((∃ rt rs imm, decodeWord w = .ok (.addi rt rs imm)) ↔ w &&& 0xFC000000 = 0x20000000) ∧
    ((∃ rs rt imm, decodeWord w = .ok (.beq rs rt imm)) ↔ w &&& 0xFC000000 = 0x10000000) ∧
    ((∃ rt rs imm, decodeWord w = .ok (.lw rt rs imm)) ↔ w &&& 0xFC000000 = 0x8C000000) ∧
    ((∃ rt rs imm, decodeWord w = .ok (.sw rt rs imm)) ↔ w &&& 0xFC000000 = 0xAC000000)

/-- The decoder rejects exactly the unrecognized words of R88. -/
def Obligations.DecodeRejectsExactlyTheUnrecognizedWords : Prop :=
  ∀ w : Word, (∃ e, decodeWord w = .error e) ↔ Unrecognized w

/-- Decode and encode agree, over every instruction and every operand value: on words, and on bytes with any bytes after
them. No bit of an encoding is dropped, shamt's among them. -/
def Obligations.DecodeOfEncodeIsTheInstruction : Prop :=
  ∀ (i : Instr) (rest : List Byte),
    decodeWord (encode i) = .ok i ∧ decodeBytes (encodeBytes i ++ rest) = .ok (i, rest)

/-- Each word has one reading: a word that decodes to an instruction is that instruction's encoding. -/
def Obligations.EncodeOfDecodeIsTheWord : Prop :=
  ∀ (w : Word) (i : Instr), decodeWord w = .ok i → encode i = w

/-- Words of the spec's own tables decode as they say (spec/95_test_vectors.md V-DEC; R94). -/
def Obligations.SpecSampleWordsDecode : Prop :=
  decodeWord 0x20020005 = .ok (.addi 2 0 5) ∧ decodeWord 0x2003000A = .ok (.addi 3 0 10) ∧
  decodeWord 0x00432020 = .ok (.add 4 2 3 0) ∧ decodeWord 0x00221960 = .ok (.add 3 1 2 5) ∧
  decodeWord 0x00011022 = .ok (.sub 2 0 1 0) ∧ decodeWord 0x10200001 = .ok (.beq 1 0 1) ∧
  decodeWord 0x8C01FFFC = .ok (.lw 1 0 0xFFFC) ∧ decodeWord 0xAC010064 = .ok (.sw 1 0 100) ∧
  decodeWord 0x00000000 = .ok .halt ∧ decodeWord 0x00000001 = .error (.unrecognizedFunct 1) ∧
  decodeWord 0xFFFFFFFF = .error (.unrecognizedOpcode 63)

/-! ## Registers (spec/10_state.md) -/

/-- A register read returns 0 for index 0 and the stored value for any other index (R22). -/
def Obligations.RegisterReadIsStoredOrZero : Prop :=
  ∀ (s : State) (i : RegIdx), readReg s i = if i = 0 then 0 else s.regs[i.toNat]'i.isLt

/-- Write-Back (R120's pseudocode): with the flag clear it does nothing; with it set it writes the latched result to the
latched register, or forces register 0 to 0, and changes nothing else. -/
def Obligations.WriteBackWritesOnlyTheLatchedRegister : Prop :=
  ∀ s : State,
    (s.latch.regWrite = false → writeBack s = s) ∧
    (s.latch.regWrite = true →
      RegisterWritten s.latch.dest s.latch.result (writeBack s) ∧
      RegistersSameBut s.latch.dest s (writeBack s) ∧
      writeBack s = { s with regs := (writeBack s).regs })

/-- The instructions that write a register are ADD, SUB, ADDI and LW, each its own destination (R23): whatever a step does,
a register that is not the fetched instruction's destination is as before, and register 0 as a destination is left at 0. -/
def Obligations.StepWritesOnlyTheDestinationRegister : Prop :=
  ∀ s t : State, step s = .next t →
    (∀ r : RegIdx, (∀ i, decodeWord (fetchWord s) = .ok i → destOf i ≠ some r) →
      t.regs[r.toNat]'r.isLt = s.regs[r.toNat]'r.isLt) ∧
    readReg t 0 = 0 ∧ (s.regs[0] = 0 → t.regs[0] = 0)

/-! ## The cycle (spec/40_cycle.md) -/

/-- A step at a running machine, its pc in bounds, whose fetched word decodes to an instruction runs that instruction, on the
state whose pc Fetch has advanced by 4 and, for every instruction but the halt sentinel, whose cycle is counted; the word
fetched is the four bytes at the pc, big-endian. Every term of Instr is well formed (WellFormed.lean). -/
def Obligations.StepRunsTheDecodedInstruction : Prop :=
  ∀ (s : State) (i : Instr), s.status = .running → s.pc.toNat ≤ 4092 →
    decodeWord (s.mem.read s.pc.toNat ++ s.mem.read (s.pc.toNat + 1) ++ s.mem.read (s.pc.toNat + 2) ++
      s.mem.read (s.pc.toNat + 3)) = .ok i →
    step s = exec i { s with pc := s.pc + 4, cycles := if i = .halt then s.cycles else s.cycles + 1 }

/-- The halt sentinel's own effect, on the state after Fetch (R114): the status; no register, no byte of memory, neither
the pc nor the counter. That the latch keeps its value is not R114's: it is the model's own choice (log entry 1), since
Execute does not run and the spec leaves the latch unspecified from cycle to cycle (R35). -/
def Obligations.HaltSetsOnlyTheStatus : Prop :=
  ∀ s : State, ∃ t, exec .halt s = .next t ∧ t.status = .halted .sentinel ∧
    RegistersSame s t ∧ MemorySame s t ∧ t.pc = s.pc ∧ t.cycles = s.cycles ∧ t.latch = s.latch

/-- The sentinel halt as a step (R114; that the pc keeps Fetch's advance is an inference of the spec): the machine stops
with the pc at the sentinel's address plus 4, and the cycle is not counted. That the latch keeps its value is not R114's: it
is the model's own choice (log entry 1), which R35 leaves unspecified. -/
def Obligations.SentinelHaltIsNotCounted : Prop :=
  ∀ s : State, s.status = .running → s.pc.toNat ≤ 4092 → fetchWord s = 0 →
    ∃ t, step s = .next t ∧ t.status = .halted .sentinel ∧ t.pc = s.pc + 4 ∧ t.cycles = s.cycles ∧
      RegistersSame s t ∧ MemorySame s t ∧ t.latch = s.latch

/-- The bound halt (R112, the spec's decision D4): past 4092 a running machine stops, and nothing but the status changes. -/
def Obligations.BoundHaltChangesOnlyTheStatus : Prop :=
  ∀ s : State, s.status = .running → 4092 < s.pc.toNat →
    ∃ t, step s = .next t ∧ t.status = .halted .bound ∧ t.pc = s.pc ∧ t.cycles = s.cycles ∧
      RegistersSame s t ∧ MemorySame s t ∧ t.latch = s.latch

/-- An unrecognized word (R118) sets no latch flag and has no effect but Fetch's advance of the pc and the count; the machine
runs on. -/
def Obligations.UnrecognizedWordHasNoEffect : Prop :=
  ∀ s : State, s.status = .running → s.pc.toNat ≤ 4092 → Unrecognized (fetchWord s) →
    ∃ t, step s = .next t ∧ t.pc = s.pc + 4 ∧ t.cycles = s.cycles + 1 ∧ t.status = .running ∧
      RegistersSame s t ∧ MemorySame s t ∧
      LatchFlags false false false t

/-- The cycle counter (R115): a step counts exactly when it fetches a word that is not the sentinel, whatever the word is and
whether or not its Memory Access faults. -/
def Obligations.StepCountsEveryExecutedWord : Prop :=
  ∀ s t : State, step s = .next t →
    t.cycles = if s.pc.toNat ≤ 4092 ∧ fetchWord s ≠ 0 then s.cycles + 1 else s.cycles

/-- The pc after any step (R27; sums modulo 2^32 by the spec's decision D3): unchanged by a bound halt, the branch target
after a taken BEQ, 4 more after everything else. -/
def Obligations.PcChangesOnlyByFetchAndTakenBranch : Prop :=
  ∀ s t : State, step s = .next t →
    (4092 < s.pc.toNat → t.pc = s.pc) ∧
    (s.pc.toNat ≤ 4092 →
      (∀ rs rt imm, decodeWord (fetchWord s) = .ok (.beq rs rt imm) → readReg s rs = readReg s rt →
        t.pc = s.pc + 4 + BitVec.ofInt 32 (4 * imm.toInt)) ∧
      ((∀ rs rt imm, decodeWord (fetchWord s) = .ok (.beq rs rt imm) → readReg s rs ≠ readReg s rt) → t.pc = s.pc + 4))

/-- Memory changes only by a store (R32): a byte that a step changes lies in the four bytes of a fetched SW in bounds. -/
def Obligations.OnlyAStoreChangesMemory : Prop :=
  ∀ (s t : State) (a : Nat), step s = .next t → t.mem.read a ≠ s.mem.read a →
    ∃ rt rs imm, decodeWord (fetchWord s) = .ok (.sw rt rs imm) ∧
      (effectiveAddress s rs imm).toNat ≤ 4092 ∧
      (effectiveAddress s rs imm).toNat ≤ a ∧ a < (effectiveAddress s rs imm).toNat + 4

/-- Only LW and SW fault (R202, an inference of the spec), only out of bounds, and the fault is precise (R201): it records
the access and the word fetched at its address, counts the cycle, keeps Fetch's advance and writes nothing. -/
def Obligations.OnlyLoadsAndStoresFaultAndPrecisely : Prop :=
  ∀ (s t : State) (info : MemFaultInfo), step s = .next t → t.status = .faulted info →
    (∃ rt rs imm,
      (decodeWord (fetchWord s) = .ok (.lw rt rs imm) ∧ info.kind = .load ∨
        decodeWord (fetchWord s) = .ok (.sw rt rs imm) ∧ info.kind = .store) ∧
      info.ea = effectiveAddress s rs imm) ∧
    4092 < info.ea.toNat ∧ info.instrAddr = s.pc ∧ info.instrWord = fetchWord s ∧
    RegistersSame s t ∧ MemorySame s t ∧ t.pc = s.pc + 4 ∧ t.cycles = s.cycles + 1

/-- The machine is total (R121, R122: the spec's inference and its decision D15): a running machine always has a next
state, and a stopped one has no step: the model answers the fault that names why (log entries 3 and 4). -/
def Obligations.RunningMachineStepsAndStoppedMachineDoesNot : Prop :=
  ∀ s : State,
    (s.status = .running → ∃ t, step s = .next t) ∧
    (∀ why, s.status = .halted why → step s = .fault (.halted why)) ∧
    (∀ info, s.status = .faulted info → step s = .fault (.memFault info))

/-- The latch carries no state across cycles (R35): whatever the latch holds, a step gives the same outcome in everything
but the latch. -/
def Obligations.LatchIsNeverObserved : Prop :=
  ∀ (s : State) (l : Latch),
    match step s with
    | .next t => ∃ l', step { s with latch := l } = .next { t with latch := l' }
    | .fault f => step { s with latch := l } = .fault f
    | .refused r => step { s with latch := l } = .refused r

/-- The latch fields that no arm writes stay as they were: the model's own choice (log entry 1), which completes the frame
of the seven instructions; the spec leaves these fields unspecified (R35). -/
def Obligations.ExecKeepsTheLatchFieldsItDoesNotWrite : Prop :=
  ∀ (i : Instr) (s t : State), exec i s = .next t → LatchFieldsKept i s.latch t.latch

/-- Over a run of `k` steps the cycle counter never falls and rises by at most `k` (R33; its width is the spec's decision
D5). -/
def Obligations.CycleCounterIsMonotoneOverRuns : Prop :=
  ∀ (k : Nat) (s t : State), reachesIn k s t → s.cycles ≤ t.cycles ∧ t.cycles ≤ s.cycles + k

/-! ## Reset, launch and the invariant (spec/70_reset_and_hazards.md, spec/10_state.md) -/

/-- The state after reset (R36): every register 0, the pc 0, every byte of memory 0, the counter 0, the status Running. -/
def Obligations.ResetClearsEverything : Prop :=
  (∀ r : RegIdx, State.reset.regs[r.toNat]'r.isLt = 0) ∧ State.reset.pc = 0 ∧
    (∀ a, State.reset.mem.read a = 0) ∧ State.reset.cycles = 0 ∧ State.reset.status = .running

/-- The program load (R232, the spec's decision D12): after it the k-th word of the image stands big-endian at 4k, for the
first 1024 words; every byte past them is 0; and everything but memory is as reset leaves it. -/
def Obligations.LaunchPlacesTheImage : Prop :=
  ∀ image : List Word,
    (∀ k w, k < 1024 → image[k]? = some w →
      (launch image).mem.read (4 * k) = w.extractLsb' 24 8 ∧
      (launch image).mem.read (4 * k + 1) = w.extractLsb' 16 8 ∧
      (launch image).mem.read (4 * k + 2) = w.extractLsb' 8 8 ∧
      (launch image).mem.read (4 * k + 3) = w.extractLsb' 0 8) ∧
    (∀ a, 4 * min image.length 1024 ≤ a → (launch image).mem.read a = 0) ∧
    launch image = { State.reset with mem := (launch image).mem }

/-- The reset state meets the invariant. -/
def Obligations.ResetMeetsTheInvariant : Prop := State.reset.Inv

/-- Every step keeps the invariant, from every state that meets it: register 0 holds zero (R24), the pc is a multiple of 4
(R28), memory stays in canonical form, and the status tells the truth about the state it stands in. -/
def Obligations.StepKeepsTheInvariant : Prop :=
  ∀ s t : State, s.Inv → step s = .next t → t.Inv

/-- Every state that any run reaches, from any program image, meets the invariant: no misaligned fetch ever happens (R28) and
register 0 holds zero (R24). -/
def Obligations.ReachableStatesMeetTheInvariant : Prop :=
  ∀ s : State, Reachable s → s.Inv

/-- A sufficient condition for a safe run (R202, R32, R28): from any state that is not Faulted, its pc a multiple of 4, whose
memory holds no LW and no SW at a multiple of 4, no run reaches a fault, and none changes a byte of memory. -/
def Obligations.NoLoadOrStoreInMemoryMeansSafeRun : Prop :=
  ∀ s : State, s.pc.toNat % 4 = 0 → (∀ info, s.status ≠ .faulted info) →
    (∀ a, a ≤ 4092 → a % 4 = 0 → ∀ rt rs imm,
      decodeWord (s.mem.readWord a) ≠ .ok (.lw rt rs imm) ∧ decodeWord (s.mem.readWord a) ≠ .ok (.sw rt rs imm)) →
    SafeRun s ∧ ∀ k t, reachesIn k s t → MemorySame s t
end

