-- ==== Sys2Proof/Laws/Decode.lean ====
section
/-! SUPPORT. The bits of an encoded word, and the fields the decoder cuts from it. -/

namespace Sys2Proof

/-- The sentinel decodes to the halt instruction. -/
@[simp] theorem decodeWord_haltWord : decodeWord haltWord = .ok .halt := if_pos rfl

/-- Any other word is dispatched on its fields. -/
theorem decodeWord_of_ne {w : Word} (h : w ≠ haltWord) : decodeWord w = dispatchFields (fieldsOf w) := if_neg h

/-- A word one of whose dispatched fields is not zero is not the sentinel. -/
theorem ne_haltWord {w : Word} (h : (fieldsOf w).opcode ≠ 0 ∨ (fieldsOf w).funct ≠ 0) : w ≠ haltWord := by
  rintro rfl
  revert h
  decide

/-- Every bit of an R-format word. -/
theorem encodeR_getLsbD (rs rt rd : RegIdx) (shamt : BitVec 5) (funct : BitVec 6) (i : Nat) :
    (encodeR rs rt rd shamt funct).getLsbD i =
      if i < 6 then funct.getLsbD i
      else if i < 11 then shamt.getLsbD (i - 6)
      else if i < 16 then rd.getLsbD (i - 11)
      else if i < 21 then rt.getLsbD (i - 16)
      else if i < 26 then rs.getLsbD (i - 21)
      else false := by
  show BitVec.getLsbD (w := 6 + 5 + 5 + 5 + 5 + 6) (opcodeRType ++ rs ++ rt ++ rd ++ shamt ++ funct) i = _
  simp only [BitVec.getLsbD_append]
  split_ifs <;> first
    | omega
    | rfl
    | exact congrArg _ (by omega)
    | simp [opcodeRType]

/-- Every bit of an I-format word. -/
theorem encodeI_getLsbD (opcode : BitVec 6) (rs rt : RegIdx) (imm : Imm16) (i : Nat) :
    (encodeI opcode rs rt imm).getLsbD i =
      if i < 16 then imm.getLsbD i
      else if i < 21 then rt.getLsbD (i - 16)
      else if i < 26 then rs.getLsbD (i - 21)
      else opcode.getLsbD (i - 26) := by
  show BitVec.getLsbD (w := 6 + 5 + 5 + 16) (opcode ++ rs ++ rt ++ imm) i = _
  simp only [BitVec.getLsbD_append]
  split_ifs <;> first
    | omega
    | rfl

/-- The fields of an R-format word are the fields it was made from. -/
theorem fieldsOf_encodeR (rs rt rd : RegIdx) (shamt : BitVec 5) (funct : BitVec 6) :
    fieldsOf (encodeR rs rt rd shamt funct) =
      ⟨opcodeRType, rs, rt, rd, shamt, funct, (encodeR rs rt rd shamt funct).extractLsb' 0 16⟩ := by
  simp only [fieldsOf, Fields.mk.injEq, and_true]
  refine ⟨?_, ?_, ?_, ?_, ?_, ?_⟩ <;> apply BitVec.eq_of_getLsbD_eq <;> intro i hi <;>
    rw [BitVec.getLsbD_extractLsb', decide_eq_true hi, Bool.true_and, encodeR_getLsbD] <;>
    split_ifs <;> first
      | omega
      | exact congrArg _ (by omega)
      | simp [opcodeRType]

/-- The fields of an I-format word that its format has are the fields it was made from. -/
theorem fieldsOf_encodeI (opcode : BitVec 6) (rs rt : RegIdx) (imm : Imm16) :
    (fieldsOf (encodeI opcode rs rt imm)).opcode = opcode ∧ (fieldsOf (encodeI opcode rs rt imm)).rs = rs ∧
      (fieldsOf (encodeI opcode rs rt imm)).rt = rt ∧ (fieldsOf (encodeI opcode rs rt imm)).imm = imm := by
  refine ⟨?_, ?_, ?_, ?_⟩ <;> apply BitVec.eq_of_getLsbD_eq <;> intro i hi <;>
    rw [fieldsOf, BitVec.getLsbD_extractLsb', decide_eq_true hi, Bool.true_and, encodeI_getLsbD] <;>
    split_ifs <;> first
      | omega
      | exact congrArg _ (by omega)

end Sys2Proof
end

