-- ==== Sys2Proof/Laws/State.lean ====
section
/-! SUPPORT. One lemma per field per update of State, each true by rfl, so that no proof unfolds a record update. -/

namespace Sys2Proof.Machine

@[simp] theorem advancePc_regs (s : State) : (advancePc s).regs = s.regs := rfl
@[simp] theorem advancePc_pc (s : State) : (advancePc s).pc = s.pc + 4 := rfl
@[simp] theorem advancePc_mem (s : State) : (advancePc s).mem = s.mem := rfl
@[simp] theorem advancePc_cycles (s : State) : (advancePc s).cycles = s.cycles := rfl
@[simp] theorem advancePc_latch (s : State) : (advancePc s).latch = s.latch := rfl
@[simp] theorem advancePc_status (s : State) : (advancePc s).status = s.status := rfl

@[simp] theorem countCycle_regs (s : State) : (countCycle s).regs = s.regs := rfl
@[simp] theorem countCycle_pc (s : State) : (countCycle s).pc = s.pc := rfl
@[simp] theorem countCycle_mem (s : State) : (countCycle s).mem = s.mem := rfl
@[simp] theorem countCycle_cycles (s : State) : (countCycle s).cycles = s.cycles + 1 := rfl
@[simp] theorem countCycle_latch (s : State) : (countCycle s).latch = s.latch := rfl
@[simp] theorem countCycle_status (s : State) : (countCycle s).status = s.status := rfl

@[simp] theorem setPc_regs (p : Word) (s : State) : (setPc p s).regs = s.regs := rfl
@[simp] theorem setPc_pc (p : Word) (s : State) : (setPc p s).pc = p := rfl
@[simp] theorem setPc_mem (p : Word) (s : State) : (setPc p s).mem = s.mem := rfl
@[simp] theorem setPc_cycles (p : Word) (s : State) : (setPc p s).cycles = s.cycles := rfl
@[simp] theorem setPc_latch (p : Word) (s : State) : (setPc p s).latch = s.latch := rfl
@[simp] theorem setPc_status (p : Word) (s : State) : (setPc p s).status = s.status := rfl

@[simp] theorem haltMachine_regs (why : HaltReason) (s : State) : (haltMachine why s).regs = s.regs := rfl
@[simp] theorem haltMachine_pc (why : HaltReason) (s : State) : (haltMachine why s).pc = s.pc := rfl
@[simp] theorem haltMachine_mem (why : HaltReason) (s : State) : (haltMachine why s).mem = s.mem := rfl
@[simp] theorem haltMachine_cycles (why : HaltReason) (s : State) : (haltMachine why s).cycles = s.cycles := rfl
@[simp] theorem haltMachine_latch (why : HaltReason) (s : State) : (haltMachine why s).latch = s.latch := rfl
@[simp] theorem haltMachine_status (why : HaltReason) (s : State) : (haltMachine why s).status = .halted why := rfl

@[simp] theorem raiseMemFault_regs (info : MemFaultInfo) (s : State) : (raiseMemFault info s).regs = s.regs := rfl
@[simp] theorem raiseMemFault_pc (info : MemFaultInfo) (s : State) : (raiseMemFault info s).pc = s.pc := rfl
@[simp] theorem raiseMemFault_mem (info : MemFaultInfo) (s : State) : (raiseMemFault info s).mem = s.mem := rfl
@[simp] theorem raiseMemFault_cycles (info : MemFaultInfo) (s : State) :
    (raiseMemFault info s).cycles = s.cycles := rfl
@[simp] theorem raiseMemFault_latch (info : MemFaultInfo) (s : State) : (raiseMemFault info s).latch = s.latch := rfl
@[simp] theorem raiseMemFault_status (info : MemFaultInfo) (s : State) :
    (raiseMemFault info s).status = .faulted info := rfl

@[simp] theorem clearLatchFlags_regs (s : State) : (clearLatchFlags s).regs = s.regs := rfl
@[simp] theorem clearLatchFlags_pc (s : State) : (clearLatchFlags s).pc = s.pc := rfl
@[simp] theorem clearLatchFlags_mem (s : State) : (clearLatchFlags s).mem = s.mem := rfl
@[simp] theorem clearLatchFlags_cycles (s : State) : (clearLatchFlags s).cycles = s.cycles := rfl
@[simp] theorem clearLatchFlags_latch (s : State) :
    (clearLatchFlags s).latch = { s.latch with regWrite := false, memRead := false, memWrite := false } := rfl
@[simp] theorem clearLatchFlags_status (s : State) : (clearLatchFlags s).status = s.status := rfl

@[simp] theorem latchResult_regs (d : RegIdx) (v : Word) (s : State) : (latchResult d v s).regs = s.regs := rfl
@[simp] theorem latchResult_pc (d : RegIdx) (v : Word) (s : State) : (latchResult d v s).pc = s.pc := rfl
@[simp] theorem latchResult_mem (d : RegIdx) (v : Word) (s : State) : (latchResult d v s).mem = s.mem := rfl
@[simp] theorem latchResult_cycles (d : RegIdx) (v : Word) (s : State) : (latchResult d v s).cycles = s.cycles := rfl
@[simp] theorem latchResult_latch (d : RegIdx) (v : Word) (s : State) :
    (latchResult d v s).latch = { s.latch with result := v, dest := d, regWrite := true } := rfl
@[simp] theorem latchResult_status (d : RegIdx) (v : Word) (s : State) : (latchResult d v s).status = s.status := rfl

@[simp] theorem latchLoad_regs (d : RegIdx) (a : Word) (s : State) : (latchLoad d a s).regs = s.regs := rfl
@[simp] theorem latchLoad_pc (d : RegIdx) (a : Word) (s : State) : (latchLoad d a s).pc = s.pc := rfl
@[simp] theorem latchLoad_mem (d : RegIdx) (a : Word) (s : State) : (latchLoad d a s).mem = s.mem := rfl
@[simp] theorem latchLoad_cycles (d : RegIdx) (a : Word) (s : State) : (latchLoad d a s).cycles = s.cycles := rfl
@[simp] theorem latchLoad_latch (d : RegIdx) (a : Word) (s : State) :
    (latchLoad d a s).latch = { s.latch with addr := a, result := a, memRead := true, dest := d, regWrite := true } := rfl
@[simp] theorem latchLoad_status (d : RegIdx) (a : Word) (s : State) : (latchLoad d a s).status = s.status := rfl

@[simp] theorem latchStore_regs (a v : Word) (s : State) : (latchStore a v s).regs = s.regs := rfl
@[simp] theorem latchStore_pc (a v : Word) (s : State) : (latchStore a v s).pc = s.pc := rfl
@[simp] theorem latchStore_mem (a v : Word) (s : State) : (latchStore a v s).mem = s.mem := rfl
@[simp] theorem latchStore_cycles (a v : Word) (s : State) : (latchStore a v s).cycles = s.cycles := rfl
@[simp] theorem latchStore_latch (a v : Word) (s : State) :
    (latchStore a v s).latch = { s.latch with addr := a, data := v, memWrite := true, regWrite := false } := rfl
@[simp] theorem latchStore_status (a v : Word) (s : State) : (latchStore a v s).status = s.status := rfl

@[simp] theorem latchLoaded_regs (v : Word) (s : State) : (latchLoaded v s).regs = s.regs := rfl
@[simp] theorem latchLoaded_pc (v : Word) (s : State) : (latchLoaded v s).pc = s.pc := rfl
@[simp] theorem latchLoaded_mem (v : Word) (s : State) : (latchLoaded v s).mem = s.mem := rfl
@[simp] theorem latchLoaded_cycles (v : Word) (s : State) : (latchLoaded v s).cycles = s.cycles := rfl
@[simp] theorem latchLoaded_latch (v : Word) (s : State) :
    (latchLoaded v s).latch = { s.latch with result := v } := rfl
@[simp] theorem latchLoaded_status (v : Word) (s : State) : (latchLoaded v s).status = s.status := rfl

@[simp] theorem writeReg_regs (i : RegIdx) (v : Word) (s : State) :
    (writeReg i v s).regs = s.regs.set i.toNat (if i = 0 then 0 else v) i.isLt := rfl
@[simp] theorem writeReg_pc (i : RegIdx) (v : Word) (s : State) : (writeReg i v s).pc = s.pc := rfl
@[simp] theorem writeReg_mem (i : RegIdx) (v : Word) (s : State) : (writeReg i v s).mem = s.mem := rfl
@[simp] theorem writeReg_cycles (i : RegIdx) (v : Word) (s : State) : (writeReg i v s).cycles = s.cycles := rfl
@[simp] theorem writeReg_latch (i : RegIdx) (v : Word) (s : State) : (writeReg i v s).latch = s.latch := rfl
@[simp] theorem writeReg_status (i : RegIdx) (v : Word) (s : State) : (writeReg i v s).status = s.status := rfl

@[simp] theorem loadImage_regs (image : List Word) (s : State) : (loadImage image s).regs = s.regs := rfl
@[simp] theorem loadImage_pc (image : List Word) (s : State) : (loadImage image s).pc = s.pc := rfl
@[simp] theorem loadImage_mem (image : List Word) (s : State) :
    (loadImage image s).mem = loadWords image 0 s.mem := rfl
@[simp] theorem loadImage_cycles (image : List Word) (s : State) : (loadImage image s).cycles = s.cycles := rfl
@[simp] theorem loadImage_latch (image : List Word) (s : State) : (loadImage image s).latch = s.latch := rfl
@[simp] theorem loadImage_status (image : List Word) (s : State) : (loadImage image s).status = s.status := rfl

@[simp] theorem placeFetchWord_regs (w : Word) (s : State) : (placeFetchWord w s).regs = s.regs := rfl
@[simp] theorem placeFetchWord_pc (w : Word) (s : State) : (placeFetchWord w s).pc = fetchablePc s := rfl
@[simp] theorem placeFetchWord_mem (w : Word) (s : State) :
    (placeFetchWord w s).mem = s.mem.writeWord (fetchablePc s).toNat w := rfl
@[simp] theorem placeFetchWord_cycles (w : Word) (s : State) : (placeFetchWord w s).cycles = s.cycles := rfl
@[simp] theorem placeFetchWord_latch (w : Word) (s : State) : (placeFetchWord w s).latch = s.latch := rfl
@[simp] theorem placeFetchWord_status (w : Word) (s : State) : (placeFetchWord w s).status = .running := rfl

end Sys2Proof.Machine
end

