-- ==== Sys2Proof/Laws/Memory.lean ====
section
/-! SUPPORT. The laws of memory: read after write, the canonical form and the operations that keep it. -/

namespace Sys2Proof.Machine

@[simp] theorem Memory.read_nil (a : Nat) : Memory.read [] a = unlistedByte := rfl

theorem Memory.read_cons (k : Nat) (v : Byte) (m : Memory) (a : Nat) :
    Memory.read ((k, v) :: m) a = if a = k then v else Memory.read m a := rfl

/-- Erasing an address makes it read as unlisted and leaves every other address alone. -/
theorem Memory.read_erase (m : Memory) (a k : Nat) :
    (m.erase a).read k = if k = a then unlistedByte else m.read k := by
  induction m with
  | nil => simp [Memory.erase]
  | cons c m ih =>
    obtain ⟨j, v⟩ := c
    by_cases hja : j = a
    · subst hja
      have : Memory.erase ((j, v) :: m) j = Memory.erase m j := by simp [Memory.erase]
      rw [this, ih, Memory.read_cons]
      split <;> rfl
    · have : Memory.erase ((j, v) :: m) a = (j, v) :: Memory.erase m a := by simp [Memory.erase, hja]
      rw [this, Memory.read_cons, Memory.read_cons, ih]
      by_cases hkj : k = j
      · subst hkj; simp [hja]
      · simp [hkj]

/-- Inserting at an address that memory does not list. -/
theorem Memory.read_insert (m : Memory) (a : Nat) (b : Byte) (k : Nat) (ha : ∀ c ∈ m, c.1 ≠ a) :
    (m.insert a b).read k = if k = a then b else m.read k := by
  induction m with
  | nil => simp [Memory.insert, Memory.read_cons]
  | cons c m ih =>
    obtain ⟨j, v⟩ := c
    have hj : j ≠ a := ha (j, v) (by simp)
    have ih := ih fun c hc => ha c (by simp [hc])
    unfold Memory.insert
    split
    · rw [Memory.read_cons]
    · rw [Memory.read_cons, Memory.read_cons, ih]
      by_cases hkj : k = j
      · subst hkj; simp [hj]
      · simp [hkj]

theorem Memory.erase_ne (m : Memory) (a : Nat) : ∀ c ∈ m.erase a, c.1 ≠ a := by
  intro c hc
  have := List.mem_filter.mp hc
  simpa using this.2

/-- The one law of a byte write, for every memory: the byte written is read back, every other byte is as before. -/
theorem Memory.read_write (m : Memory) (a : Nat) (b : Byte) (k : Nat) :
    (m.write a b).read k = if k = a then b else m.read k := by
  unfold Memory.write
  split
  · next h => rw [Memory.read_erase, h]
  · rw [Memory.read_insert _ _ _ _ (Memory.erase_ne m a), Memory.read_erase]
    split <;> rfl

/-- The one law of a word write: its four bytes, big-endian, and every other byte as before. -/
theorem Memory.read_writeWord (m : Memory) (a : Nat) (v : Word) (k : Nat) :
    (m.writeWord a v).read k =
      if a ≤ k ∧ k < a + 4 then byteOfWord v (k - a) else m.read k := by
  unfold Memory.writeWord
  simp only [Memory.read_write]
  by_cases h3 : k = a + 3
  · subst h3; simp
  by_cases h2 : k = a + 2
  · subst h2; simp
  by_cases h1 : k = a + 1
  · subst h1; simp
  by_cases h0 : k = a
  · subst h0; simp
  · have : ¬ (a ≤ k ∧ k < a + 4) := by omega
    simp [h0, h1, h2, h3, this]

theorem Memory.erase_wf {m : Memory} (h : m.wf) (a : Nat) : (m.erase a).wf :=
  ⟨h.1.filter _, fun c hc => h.2 c (List.mem_filter.mp hc).1⟩

theorem Memory.mem_insert {m : Memory} {a : Nat} {b : Byte} {c : Host.Cell} (h : c ∈ m.insert a b) :
    c = (a, b) ∨ c ∈ m := by
  induction m with
  | nil => simpa [Memory.insert] using h
  | cons d m ih =>
    obtain ⟨k, v⟩ := d
    unfold Memory.insert at h
    split at h
    · simpa using h
    · rcases List.mem_cons.mp h with h | h
      · exact .inr (by simp [h])
      · rcases ih h with h | h
        · exact .inl h
        · exact .inr (by simp [h])

theorem Memory.insert_wf {m : Memory} (h : m.wf) {a : Nat} {b : Byte} (ha : a < Config.memSize)
    (hb : b ≠ unlistedByte) (hne : ∀ c ∈ m, c.1 ≠ a) : (m.insert a b).wf := by
  induction m with
  | nil => exact ⟨List.pairwise_singleton _ _, fun c hc => by rw [List.mem_singleton.mp hc]; exact ⟨ha, hb⟩⟩
  | cons d m ih =>
    obtain ⟨k, v⟩ := d
    have hp := List.pairwise_cons.mp h.1
    have hk := h.2 (k, v) (by simp)
    have hm : Memory.wf m := ⟨hp.2, fun c hc => h.2 c (by simp [hc])⟩
    unfold Memory.insert
    split
    · next hak =>
      refine ⟨List.pairwise_cons.mpr ⟨fun c hc => ?_, h.1⟩, fun c hc => ?_⟩
      · rcases List.mem_cons.mp hc with rfl | hc
        · exact hak
        · exact lt_trans hak (hp.1 c hc)
      · rcases List.mem_cons.mp hc with rfl | hc
        · exact ⟨ha, hb⟩
        · exact h.2 c hc
    · next hak =>
      have hka : k < a := lt_of_le_of_ne (not_lt.mp hak) (hne (k, v) (by simp))
      have ih := ih hm fun c hc => hne c (by simp [hc])
      refine ⟨List.pairwise_cons.mpr ⟨fun c hc => ?_, ih.1⟩, fun c hc => ?_⟩
      · rcases Memory.mem_insert hc with rfl | hc
        · exact hka
        · exact hp.1 c hc
      · rcases List.mem_cons.mp hc with rfl | hc
        · exact hk
        · exact ih.2 c hc

/-- A byte write inside the memory keeps the canonical form. -/
theorem Memory.write_wf {m : Memory} (h : m.wf) {a : Nat} (b : Byte) (ha : a < Config.memSize) : (m.write a b).wf := by
  unfold Memory.write
  split
  · exact Memory.erase_wf h a
  · next hb => exact Memory.insert_wf (Memory.erase_wf h a) ha hb (Memory.erase_ne m a)

/-- A word write inside the memory keeps the canonical form. -/
theorem Memory.writeWord_wf {m : Memory} (h : m.wf) {a : Nat} (v : Word) (ha : a + 3 < Config.memSize) :
    (m.writeWord a v).wf := by
  unfold Memory.writeWord
  exact Memory.write_wf (Memory.write_wf (Memory.write_wf (Memory.write_wf h _ (by omega)) _ (by omega)) _ (by omega)) _
    (by omega)

/-- The program load keeps the canonical form, whatever the image. -/
theorem loadWords_wf (image : List Word) {m : Memory} (h : m.wf) (a : Nat) : (loadWords image a m).wf := by
  induction image generalizing a m with
  | nil => exact h
  | cons w ws ih =>
    unfold loadWords
    split
    · next ha => exact ih (Memory.writeWord_wf h w ha) _
    · exact h

@[simp] theorem State.reset_mem_wf : State.reset.mem.wf := by decide

theorem inBounds_iff (a : Word) : inBounds a = true ↔ a.toNat ≤ 4092 := by
  rw [inBounds, decide_eq_true_iff, show Config.memSize = 4096 from rfl]; omega

theorem inBounds_lt {a : Word} (h : inBounds a = true) : a.toNat + 3 < Config.memSize := by
  simpa [inBounds] using h

end Sys2Proof.Machine
end

