-- ==== Sys2Proof/Laws/Ops.lean ====
section
/-! SUPPORT. What each shared operation can do, said once: the register file, the latch, Memory Access, Write-Back and the
rest of a cycle after Execute. -/

namespace Sys2Proof.Machine

/-! ## The register file -/

@[simp] theorem readReg_zero (s : State) : readReg s 0 = 0 := rfl

theorem readReg_of_ne {s : State} {i : RegIdx} (h : i ≠ 0) : readReg s i = s.regs[i.toNat]'i.isLt :=
  if_neg h

/-- Reads see only the stored registers. -/
theorem readReg_congr {s t : State} (h : t.regs = s.regs) (i : RegIdx) : readReg t i = readReg s i := by
  simp [readReg, h]

@[simp] theorem readReg_clearLatchFlags (s : State) (i : RegIdx) : readReg (clearLatchFlags s) i = readReg s i := rfl

@[simp] theorem readReg_countCycle (s : State) (i : RegIdx) : readReg (countCycle s) i = readReg s i := rfl

@[simp] theorem readReg_advancePc (s : State) (i : RegIdx) : readReg (advancePc s) i = readReg s i := rfl

/-- The stored register file after a write: index 0 is forced to 0, every other register is as before. -/
theorem writeReg_stored (i j : RegIdx) (v : Word) (s : State) :
    (writeReg i v s).regs[j.toNat]'j.isLt =
      if j = i then (if i = 0 then 0 else v) else s.regs[j.toNat]'j.isLt := by
  rw [writeReg_regs, Vector.getElem_set]
  by_cases h : i = j
  · subst h; simp
  · have hn : i.toNat ≠ j.toNat := fun hc => h (BitVec.eq_of_toNat_eq hc)
    simp [hn, Ne.symm h]

/-- A read after a write: the value, unless the register is register 0. -/
theorem readReg_writeReg (i j : RegIdx) (v : Word) (s : State) :
    readReg (writeReg i v s) j = if j = i ∧ i ≠ 0 then v else readReg s j := by
  rcases eq_or_ne j 0 with rfl | hj
  · rw [readReg_zero, readReg_zero, if_neg fun h => h.2 h.1.symm]
  · rw [readReg_of_ne hj, writeReg_stored, readReg_of_ne hj]
    rcases eq_or_ne j i with rfl | h
    · rw [if_pos rfl, if_neg hj, if_pos ⟨rfl, hj⟩]
    · rw [if_neg h, if_neg fun hc => h hc.1]

/-! ## Memory Access and Write-Back -/

/-- Everything Memory Access can do: the next state of each access, or the fault of an access out of bounds. -/
theorem memoryAccess_cases (w : Word) (s : State) :
    (s.latch.memRead = false ∧ s.latch.memWrite = false ∧ memoryAccess w s = .ok s) ∨
    (s.latch.memRead = true ∧ s.latch.memWrite = false ∧ inBounds s.latch.addr = true ∧
      memoryAccess w s = .ok (latchLoaded (s.mem.readWord s.latch.addr.toNat) s)) ∨
    (s.latch.memRead = false ∧ s.latch.memWrite = true ∧ inBounds s.latch.addr = true ∧
      memoryAccess w s = .ok { s with mem := s.mem.writeWord s.latch.addr.toNat s.latch.data }) ∨
    (s.latch.memRead = true ∧ s.latch.memWrite = true ∧ inBounds s.latch.addr = true ∧
      memoryAccess w s = .ok { latchLoaded (s.mem.readWord s.latch.addr.toNat) s with
        mem := s.mem.writeWord s.latch.addr.toNat s.latch.data }) ∨
    (s.latch.memRead = true ∧ inBounds s.latch.addr = false ∧ memoryAccess w s = .error (memFaultInfo .load w s)) ∨
    (s.latch.memRead = false ∧ s.latch.memWrite = true ∧ inBounds s.latch.addr = false ∧
      memoryAccess w s = .error (memFaultInfo .store w s)) := by
  cases hr : s.latch.memRead <;> cases hw : s.latch.memWrite <;> cases hb : inBounds s.latch.addr <;>
    simp [memoryAccess, loadAccess, storeAccess, hr, hw, hb]

/-- Everything Write-Back can do. -/
theorem writeBack_cases (s : State) :
    (s.latch.regWrite = false ∧ writeBack s = s) ∨
    (s.latch.regWrite = true ∧ writeBack s = writeReg s.latch.dest s.latch.result s) := by
  cases h : s.latch.regWrite <;> simp [writeBack, h]

/-! ## The rest of a cycle, for each latch that Execute can leave -/

/-- No flag set: the cycle changes nothing more. -/
theorem completeCycle_noEffect (w : Word) (s : State) :
    completeCycle w (clearLatchFlags s) = .next (clearLatchFlags s) := by
  simp [completeCycle, memoryAccess, loadAccess, storeAccess, writeBack]

/-- A taken branch sets no flag either. -/
theorem completeCycle_setPc (w p : Word) (s : State) :
    completeCycle w (setPc p (clearLatchFlags s)) = .next (setPc p (clearLatchFlags s)) := by
  simp [completeCycle, memoryAccess, loadAccess, storeAccess, writeBack]

/-- An arithmetic arm's latch: the result is written back. -/
theorem completeCycle_latchResult (w : Word) (d : RegIdx) (v : Word) (s : State) :
    completeCycle w (latchResult d v (clearLatchFlags s)) =
      .next (writeReg d v (latchResult d v (clearLatchFlags s))) := by
  simp [completeCycle, memoryAccess, loadAccess, storeAccess, writeBack]

/-- LW's latch: the word is read and written back, or the access faults and nothing is written. -/
theorem completeCycle_latchLoad (w : Word) (d : RegIdx) (a : Word) (s : State) :
    completeCycle w (latchLoad d a (clearLatchFlags s)) =
      if inBounds a then
        .next (writeReg d (s.mem.readWord a.toNat)
          (latchLoaded (s.mem.readWord a.toNat) (latchLoad d a (clearLatchFlags s))))
      else .next (raiseMemFault ⟨.load, a, s.pc - 4, w⟩ (latchLoad d a (clearLatchFlags s))) := by
  cases h : inBounds a <;> simp [completeCycle, memoryAccess, loadAccess, storeAccess, writeBack, memFaultInfo, h]

/-- SW's latch: the word is stored, or the access faults and nothing is written. -/
theorem completeCycle_latchStore (w a v : Word) (s : State) :
    completeCycle w (latchStore a v (clearLatchFlags s)) =
      if inBounds a then
        .next { latchStore a v (clearLatchFlags s) with mem := s.mem.writeWord a.toNat v }
      else .next (raiseMemFault ⟨.store, a, s.pc - 4, w⟩ (latchStore a v (clearLatchFlags s))) := by
  cases h : inBounds a <;> simp [completeCycle, memoryAccess, loadAccess, storeAccess, writeBack, memFaultInfo, h]

end Sys2Proof.Machine
end

