-- ==== Sys2Proof/Laws/Exec.lean ====
section
/-! SUPPORT. What each instruction answers, said once as an equation over the named updates of State. -/

namespace Sys2Proof.Machine

theorem exec_halt (s : State) : exec .halt s = .next (haltMachine .sentinel s) := rfl

theorem exec_add (rd rs rt : RegIdx) (shamt : BitVec 5) (s : State) :
    exec (.add rd rs rt shamt) s =
      .next (writeReg rd (aluAdd (readReg s rs) (readReg s rt))
        (latchResult rd (aluAdd (readReg s rs) (readReg s rt)) (clearLatchFlags s))) :=
  completeCycle_latchResult (encode (.add rd rs rt shamt)) _ _ _

theorem exec_sub (rd rs rt : RegIdx) (shamt : BitVec 5) (s : State) :
    exec (.sub rd rs rt shamt) s =
      .next (writeReg rd (aluSub (readReg s rs) (readReg s rt))
        (latchResult rd (aluSub (readReg s rs) (readReg s rt)) (clearLatchFlags s))) :=
  completeCycle_latchResult (encode (.sub rd rs rt shamt)) _ _ _

theorem exec_addi (rt rs : RegIdx) (imm : Imm16) (s : State) :
    exec (.addi rt rs imm) s =
      .next (writeReg rt (aluAdd (readReg s rs) (immediate imm))
        (latchResult rt (aluAdd (readReg s rs) (immediate imm)) (clearLatchFlags s))) :=
  completeCycle_latchResult (encode (.addi rt rs imm)) _ _ _

theorem exec_beq_taken {rs rt : RegIdx} {s : State} (h : readReg s rs = readReg s rt) (imm : Imm16) :
    exec (.beq rs rt imm) s = .next (setPc (branchTarget s.pc imm) (clearLatchFlags s)) := by
  rw [exec, execBeq, if_pos (by simp [aluEq, h]), completeCycle_setPc]

theorem exec_beq_not_taken {rs rt : RegIdx} {s : State} (h : readReg s rs ≠ readReg s rt) (imm : Imm16) :
    exec (.beq rs rt imm) s = .next (clearLatchFlags s) := by
  rw [exec, execBeq, if_neg (by simp [aluEq, h]), completeCycle_noEffect]

theorem exec_lw_inBounds (rt : RegIdx) {rs : RegIdx} {imm : Imm16} {s : State}
    (h : inBounds (effectiveAddress s rs imm) = true) :
    exec (.lw rt rs imm) s =
      .next (writeReg rt (s.mem.readWord (effectiveAddress s rs imm).toNat)
        (latchLoaded (s.mem.readWord (effectiveAddress s rs imm).toNat)
          (latchLoad rt (effectiveAddress s rs imm) (clearLatchFlags s)))) := by
  rw [exec, execLw, completeCycle_latchLoad, if_pos h]

theorem exec_lw_outOfBounds (rt : RegIdx) {rs : RegIdx} {imm : Imm16} {s : State}
    (h : inBounds (effectiveAddress s rs imm) = false) :
    exec (.lw rt rs imm) s =
      .next (raiseMemFault ⟨.load, effectiveAddress s rs imm, s.pc - 4, encode (.lw rt rs imm)⟩
        (latchLoad rt (effectiveAddress s rs imm) (clearLatchFlags s))) := by
  rw [exec, execLw, completeCycle_latchLoad, if_neg (by rw [h]; decide)]

theorem exec_sw_inBounds (rt : RegIdx) {rs : RegIdx} {imm : Imm16} {s : State}
    (h : inBounds (effectiveAddress s rs imm) = true) :
    exec (.sw rt rs imm) s =
      .next { latchStore (effectiveAddress s rs imm) (readReg s rt) (clearLatchFlags s) with
        mem := s.mem.writeWord (effectiveAddress s rs imm).toNat (readReg s rt) } := by
  rw [exec, execSw, completeCycle_latchStore, if_pos h]

theorem exec_sw_outOfBounds (rt : RegIdx) {rs : RegIdx} {imm : Imm16} {s : State}
    (h : inBounds (effectiveAddress s rs imm) = false) :
    exec (.sw rt rs imm) s =
      .next (raiseMemFault ⟨.store, effectiveAddress s rs imm, s.pc - 4, encode (.sw rt rs imm)⟩
        (latchStore (effectiveAddress s rs imm) (readReg s rt) (clearLatchFlags s))) := by
  rw [exec, execSw, completeCycle_latchStore, if_neg (by rw [h]; decide)]

end Sys2Proof.Machine
end

