-- ==== Sys2Proof/Laws/PerInstr.lean ====
section
/-! SUPPORT. Statements made of every instruction, one lemma per constructor.

EncodesItsRow: the encoding of an instruction matches the row of the opcode map it stands for (spec/30_encoding.md R87). -/

namespace Sys2Proof.Laws.EncodesItsRow

/-- `(word & mask) == match` for the instruction's word and its row (R87). -/
def Statement (i : Instr) : Prop := (rowOf i).matchesWord (encode i) = true

theorem of_bits {r : OpcodeRow} {w : Word}
    (h : ∀ k, k < 32 → (w.getLsbD k && r.mask.getLsbD k) = r.matchBits.getLsbD k) : r.matchesWord w = true := by
  rw [OpcodeRow.matchesWord, beq_iff_eq]
  exact BitVec.eq_of_getLsbD_eq fun k hk => by rw [BitVec.getLsbD_and, h k hk]

theorem halt : Statement .halt := rfl

theorem add (rd rs rt : RegIdx) (shamt : BitVec 5) : Statement (.add rd rs rt shamt) := by
  refine of_bits fun k hk => ?_
  rw [encode, encodeR_getLsbD]
  interval_cases k <;> simp [rowOf, rowAdd, functAdd]

theorem sub (rd rs rt : RegIdx) (shamt : BitVec 5) : Statement (.sub rd rs rt shamt) := by
  refine of_bits fun k hk => ?_
  rw [encode, encodeR_getLsbD]
  interval_cases k <;> simp [rowOf, rowSub, functSub]

theorem addi (rt rs : RegIdx) (imm : Imm16) : Statement (.addi rt rs imm) := by
  refine of_bits fun k hk => ?_
  rw [encode, encodeI_getLsbD]
  interval_cases k <;> simp [rowOf, rowAddi, opcodeAddi]

theorem beq (rs rt : RegIdx) (imm : Imm16) : Statement (.beq rs rt imm) := by
  refine of_bits fun k hk => ?_
  rw [encode, encodeI_getLsbD]
  interval_cases k <;> simp [rowOf, rowBeq, opcodeBeq]

theorem lw (rt rs : RegIdx) (imm : Imm16) : Statement (.lw rt rs imm) := by
  refine of_bits fun k hk => ?_
  rw [encode, encodeI_getLsbD]
  interval_cases k <;> simp [rowOf, rowLw, opcodeLw]

theorem sw (rt rs : RegIdx) (imm : Imm16) : Statement (.sw rt rs imm) := by
  refine of_bits fun k hk => ?_
  rw [encode, encodeI_getLsbD]
  interval_cases k <;> simp [rowOf, rowSw, opcodeSw]

end Sys2Proof.Laws.EncodesItsRow
end

