-- ==== Sys2Proof/Laws/Step.lean ====
section
/-! SUPPORT. What a step can do, said once: the cases of the cycle driver, and the placing of one instruction. -/

namespace Sys2Proof.Machine

/-- Where a step's next state comes from: the bound halt, a decoded instruction, or an unrecognized word. -/
theorem step_cases {s t : State} (h : step s = .next t) :
    s.status = .running ∧
      ((inBounds s.pc = false ∧ t = haltMachine .bound s) ∨
       (inBounds s.pc = true ∧ ∃ i, decodeWord (fetchWord s) = .ok i ∧ exec i (beforeExecute i (advancePc s)) = .next t) ∨
       (inBounds s.pc = true ∧ (∃ e, decodeWord (fetchWord s) = .error e) ∧ t = clearLatchFlags (countCycle (advancePc s)))) := by
  unfold step at h
  split at h
  · next hs =>
    refine ⟨hs, ?_⟩
    unfold driverCycle at h
    split at h
    · next hb =>
      unfold runWord at h
      split at h
      · next i hi => exact .inr (.inl ⟨hb, i, hi, h⟩)
      · next e he =>
        rw [execUnrecognized, completeCycle_noEffect] at h
        exact .inr (.inr ⟨hb, ⟨e, he⟩, (Host.Outcome.next.inj h).symm⟩)
    · next hb => exact .inl ⟨by simpa using hb, (Host.Outcome.next.inj h).symm⟩
  · cases h
  · cases h

theorem fetchablePc_inBounds (s : State) : inBounds (fetchablePc s) = true := by
  unfold fetchablePc
  split
  · assumption
  · decide

/-- The big-endian bytes of a word compose to the word. -/
theorem wordOfBytes_bytesOfWord (w : Word) :
    wordOfBytes (byteOfWord w 0) (byteOfWord w 1) (byteOfWord w 2) (byteOfWord w 3) = w := by
  apply BitVec.eq_of_getLsbD_eq
  intro i hi
  show BitVec.getLsbD (w := 8 + 8 + 8 + 8) (byteOfWord w 0 ++ byteOfWord w 1 ++ byteOfWord w 2 ++ byteOfWord w 3) i = _
  simp only [byteOfWord, BitVec.getLsbD_append, BitVec.getLsbD_extractLsb']
  split_ifs <;> rw [decide_eq_true (by omega), Bool.true_and] <;> congr 1 <;> omega

/-- A word stored is the word read there. -/
theorem Memory.readWord_writeWord (m : Memory) (a : Nat) (v : Word) : (m.writeWord a v).readWord a = v := by
  have : ∀ k, k < 4 → (m.writeWord a v).read (a + k) = byteOfWord v k := fun k hk => by
    rw [Memory.read_writeWord, if_pos (by omega), Nat.add_sub_cancel_left]
  have h0 := this 0 (by omega)
  rw [Nat.add_zero] at h0
  rw [Memory.readWord, h0, this 1 (by omega), this 2 (by omega), this 3 (by omega), wordOfBytes_bytesOfWord]

/-- After `withFetchWord` the very next step runs exactly the placed word. -/
theorem step_withFetchWord (s : State) (nbits w : Nat) :
    step (s.withFetchWord nbits w) = runWord (tableWord nbits w) (advancePc (s.withFetchWord nbits w)) := by
  simp [State.withFetchWord, step, driverCycle, fetchablePc_inBounds, fetchWord, Memory.readWord_writeWord]

end Sys2Proof.Machine
end

