-- ==== Sys2Proof/Tests/Slice0.lean ====
section
/-! SUPPORT. The model's own tests. Every expected value is the spec's: the tables of spec/95_test_vectors.md, the worked
examples of the instruction rules, or the encodings of spec/30_encoding.md. After them, one witness for each statement with
hypotheses: a concrete state and operands that meet all of them together. -/

namespace Sys2Proof.Tests

open Sys2Proof.Machine Sys2Proof.Claims

/-! ## Well-formedness: an ill-formed term for each check -/

theorem test_regNumber_32_refused : regNumberOk 32 = false ∧ regField 32 = none ∧ regField 31 = some 31 := by decide

theorem test_immediate_outside_16_bits_refused :
    immValueOk 32768 = false ∧ immValueOk (-32769) = false ∧ immField 32768 = none ∧ immField (-1) = some 0xFFFF := by
  decide

theorem test_image_of_1025_words_refused : imageOk (List.replicate 1025 0) = false := by
  rw [imageOk, List.length_replicate]
  decide

/-! ## Decoding words written out from their encodings (R82, R83, R87) -/

/-- opcode 000000, rs 00010, rt 00011, rd 00100, shamt 00000, funct 100000. -/
theorem test_decode_add : decodeWord 0b00000000010000110010000000100000 = .ok (.add 4 2 3 0) := by decide

/-- shamt 00101: still ADD (R89; V-DEC 0x00221960). -/
theorem test_decode_add_shamt : decodeWord 0b00000000001000100001100101100000 = .ok (.add 3 1 2 5) := by decide

/-- opcode 000000, rs 00000, rt 00001, rd 00010, shamt 00000, funct 100010 (R152's example). -/
theorem test_decode_sub : decodeWord 0b00000000000000010001000000100010 = .ok (.sub 2 0 1 0) := by decide

/-- opcode 001000, rs 00000, rt 00010, imm 5 (R153's example). -/
theorem test_decode_addi : decodeWord 0b00100000000000100000000000000101 = .ok (.addi 2 0 5) := by decide

/-- opcode 000100, rs 00001, rt 00000, imm 1 (R170's example). -/
theorem test_decode_beq : decodeWord 0b00010000001000000000000000000001 = .ok (.beq 1 0 1) := by decide

/-- opcode 100011, rs 00000, rt 00010, imm 100 (R181's example). -/
theorem test_decode_lw : decodeWord 0b10001100000000100000000001100100 = .ok (.lw 2 0 100) := by decide

/-- opcode 101011, rs 00000, rt 00001, imm 100 (R182's example). -/
theorem test_decode_sw : decodeWord 0b10101100000000010000000001100100 = .ok (.sw 1 0 100) := by decide

theorem test_decode_halt : decodeWord 0 = .ok .halt := by decide

theorem test_decode_unrecognized_funct : decodeWord 0x00000001 = .error (.unrecognizedFunct 1) := by decide

theorem test_decode_unrecognized_opcode : decodeWord 0x08000003 = .error (.unrecognizedOpcode 2) := by decide

theorem test_decode_truncated : decodeBytes [0x20, 0x02, 0x00] = .error (.truncated 3) := by decide

/-- No word matches two rows of the opcode map: each two rows differ in a bit that both fix. -/
theorem test_opcode_rows_disjoint :
    opcodeMap.Pairwise fun r q => (r.matchBits ^^^ q.matchBits) &&& r.mask &&& q.mask ≠ 0 := by decide

/-- The encoder on the spec's own words (R92), and the pseudo-instructions' words (R93). -/
theorem test_encode_spec_words :
    encode (.add 4 2 3 0) = 0x00432020 ∧ encode (.sub 2 0 1 0) = 0x00011022 ∧ encode (.addi 2 0 5) = 0x20020005 ∧
    encode (.beq 1 0 1) = 0x10200001 ∧ encode (.lw 2 0 100) = 0x8C020064 ∧ encode (.sw 1 0 100) = 0xAC010064 ∧
    encode pseudoNop = 0x00000020 ∧ (pseudoLi 1 (-1)).map encode = some 0x2001FFFF ∧
    encode (pseudoMove 3 2) = 0x00401820 ∧ encode (pseudoB 0xFFFC) = 0x1000FFFC := by decide

theorem test_decodeTableWord_rows :
    decodeTableWord 32 0x00000000 = some .halt ∧ decodeTableWord 32 0x00000020 = some (.add 0 0 0 0) ∧
    decodeTableWord 32 0xAC000000 = some (.sw 0 0 0) ∧ decodeTableWord 32 0xFFFFFFFF = none := by decide

/-! ## One step on a small state -/

/-- A running state with the given pc, R1, R2 and words of memory. -/
def testState (pc r1 r2 : Word) (words : List (Nat × Word)) : State :=
  { State.reset with
    pc := pc
    regs := (State.reset.regs.set 1 r1).set 2 r2
    mem := words.foldl (fun m c => m.writeWord c.1 c.2) [] }

/-- What an outcome's next state shows, and nothing where there is none. -/
def seen {α : Type} (f : State → α) (o : Result) : Option α :=
  match o with
  | .next t => some (f t)
  | _ => none

/-- V-ADD: signed overflow wraps, no trap. -/
theorem test_add_wraps :
    seen (readReg · 3) (step (testState 0 0x7FFFFFFF 1 [(0, 0x00221820)])) = some 0x80000000 := by decide

/-- V-ADD: the sources are read before the write, `ADD R1, R1, R1`. -/
theorem test_add_source_is_destination :
    seen (readReg · 1) (step (testState 0 3 0 [(0, 0x00210820)])) = some 6 := by decide

/-- V-SUB. -/
theorem test_sub_borrows :
    seen (readReg · 3) (step (testState 0 5 10 [(0, 0x00221822)])) = some 0xFFFFFFFB := by decide

/-- V-ADDI: imm 0xFFFF is -1. -/
theorem test_addi_sign_extends :
    seen (readReg · 2) (step (testState 0 1 7 [(0, 0x2022FFFF)])) = some 0 := by decide

/-- V-ADDI: `ADDI R0, R1, 5` is discarded. -/
theorem test_addi_register_zero :
    seen (fun t => (readReg t 0, t.regs[0])) (step (testState 0 1 0 [(0, 0x20200005)])) = some (0, 0) := by decide

/-- V-BEQ: A = 16, equal, imm 0xFFFC. -/
theorem test_beq_backward :
    seen State.pc (step (testState 16 3 3 [(16, 0x1022FFFC)])) = some 4 := by decide

/-- V-BEQ: A = 12, unequal. -/
theorem test_beq_not_taken : seen State.pc (step (testState 12 3 4 [(12, 0x10220001)])) = some 16 := by decide

/-- V-LS: `LW R1, -4(R1)`, the base read before the write. -/
theorem test_lw_base_is_destination :
    seen (readReg · 1) (step (testState 0 104 0 [(0, 0x8C21FFFC), (100, 0x12345678)])) = some 0x12345678 := by decide

/-- V-LS and P6: an LW out of bounds stops in MemFault, pc past it, the cycle counted. -/
theorem test_lw_faults :
    seen (fun t => (t.status, t.pc, t.cycles)) (step (testState 4 0xFFD 0 [(4, 0x8C220000)])) =
      some (.faulted ⟨.load, 0xFFD, 4, 0x8C220000⟩, 8, 1) := by decide

/-- V-LS: `SW R1, 102(R0)`, misaligned, big-endian. -/
theorem test_sw_misaligned :
    seen (fun t => (t.mem.readWord 100, t.mem.readWord 104)) (step (testState 0 0x11223344 0 [(0, 0xAC010066)])) =
      some (0x00001122, 0x33440000) := by decide

/-- V-LS: `SW R0, 0(R1)` out of bounds writes no byte. -/
theorem test_sw_faults :
    seen (fun t => (t.status, t.mem.read 4093, t.mem.read 4095))
        (step (testState 0 0xFFD 0 [(0, 0xAC200000), (4092, 0x01020304)])) =
      some (.faulted ⟨.store, 0xFFD, 0, 0xAC200000⟩, 2, 4) := by decide

/-- V-CYC: the sentinel at 20. -/
theorem test_halt_at_20 :
    seen (fun t => (t.status, t.pc, t.cycles)) (step (testState 20 0 0 [])) = some (.halted .sentinel, 24, 0) := by decide

/-- V-CYC: an unrecognized opcode at 20 has no effect and is counted. -/
theorem test_unrecognized_at_20 :
    seen (fun t => (t.status, t.pc, t.cycles, readReg t 1)) (step (testState 20 9 0 [(20, 0x08000003)])) =
      some (.running, 24, 1, 9) := by decide

/-- V-CYC: the pc at 0xFFFFFFFC. -/
theorem test_bound_halt :
    seen (fun t => (t.status, t.pc, t.cycles)) (step (testState 0xFFFFFFFC 0 0 [])) =
      some (.halted .bound, 0xFFFFFFFC, 0) := by decide

/-- R232's example: the bytes of the loaded image. -/
theorem test_launch_bytes :
    (launch [0x20020005, 0x2003000A]).mem.read 0 = 0x20 ∧ (launch [0x20020005, 0x2003000A]).mem.read 5 = 0x03 ∧
    (launch [0x20020005, 0x2003000A]).mem.read 7 = 0x0A ∧ (launch [0x20020005, 0x2003000A]).mem.read 8 = 0 := by decide

/-- Writing what an unlisted address reads as removes the pair: the canonical form. -/
theorem test_memory_canonical : Memory.write (Memory.write [] 5 1) 5 0 = [] := by decide

/-- The host's placement runs exactly the placed word. -/
theorem test_withFetchWord :
    seen (fun t => (readReg t 2, t.pc)) (step (State.reset.withFetchWord 32 0x20020005)) = some (5, 4) := by decide

/-! ## Witnesses: the hypotheses of each statement can be met together -/

theorem witness_AddWritesWrappedSum : (0x00221960 : Word) &&& 0xFC00003F = 0x00000020 := by decide

theorem witness_SubWritesWrappedDifference : (0xFFFFFFE2 &&& 0x03FFFFFF : Word) &&& 0xFC00003F = 0x00000022 := by decide

theorem witness_AddiWritesSumWithImmediate : (0x2001FFFF : Word) &&& 0xFC000000 = 0x20000000 := by decide

theorem witness_BeqWritesOnlyThePc : (0x13FFFFFF : Word) &&& 0xFC000000 = 0x10000000 := by decide

/-- At the last fetchable address, with the furthest forward offset. -/
theorem witness_TakenBranchIsRelativeToThePcAfterFetch :
    let s := testState 4092 7 7 [(4092, 0x10227FFF)]
    s.status = .running ∧ s.pc.toNat ≤ 4092 ∧ decodeWord (fetchWord s) = .ok (.beq 1 2 0x7FFF) ∧
      readReg s 1 = readReg s 2 := by decide

theorem witness_BranchTargetStaysAligned : (0xFFFFFFFC : Word).toNat % 4 = 0 := by decide

/-- At the last effective address in bounds, and for a word of each load encoding. -/
theorem witness_LwLoadsBigEndianWord :
    (effectiveAddress State.reset 0 4092).toNat ≤ 4092 ∧ (0x8C01FFFC : Word) &&& 0xFC000000 = 0x8C000000 := by decide

/-- At the first effective address out of bounds, and at one that wraps below 0. -/
theorem witness_LwOutOfBoundsFaults :
    4092 < (effectiveAddress State.reset 0 4093).toNat ∧ 4092 < (effectiveAddress State.reset 0 0xFFFC).toNat := by decide

theorem witness_SwStoresBigEndianWord :
    (effectiveAddress State.reset 0 4092).toNat ≤ 4092 ∧ (0xAC010064 : Word) &&& 0xFC000000 = 0xAC000000 := by decide

theorem witness_SwOutOfBoundsFaults :
    4092 < (effectiveAddress State.reset 0 4093).toNat ∧ 4092 < (effectiveAddress State.reset 0 0xFFFC).toNat := by decide

/-- `SW R1, 4092(R0)` and then `LW R2, 4092(R0)`. -/
theorem witness_StoreThenLoadRoundTrips :
    ∃ t, (effectiveAddress (testState 4 9 0 []) 0 4092).toNat ≤ 4092 ∧
      exec (.sw 1 0 4092) (testState 4 9 0 []) = .next t ∧
      effectiveAddress t 0 4092 = effectiveAddress (testState 4 9 0 []) 0 4092 :=
  ⟨_, by decide, exec_sw_inBounds 1 (by decide), rfl⟩

/-- `SW R0, 24(R0)` over the word at 24, and a running machine whose pc is 24. -/
theorem witness_LaterFetchSeesStore :
    ∃ t u : State, (effectiveAddress (testState 4 9 0 []) 0 24).toNat ≤ 4092 ∧
      exec (.sw 0 0 24) (testState 4 9 0 []) = .next t ∧ u.mem = t.mem ∧
      u.pc = effectiveAddress (testState 4 9 0 []) 0 24 ∧ readReg (testState 4 9 0 []) 0 = 0 ∧ u.status = .running :=
  ⟨_, { testState 24 9 0 [] with mem := Memory.writeWord [] 24 0 }, by decide, exec_sw_inBounds 0 (by decide),
    by decide, by decide, rfl, rfl⟩

theorem witness_MemWriteIsBigEndian : 4092 ≤ 4092 ∧ 4092 < (effectiveAddress State.reset 0 4093).toNat := by decide

theorem witness_CanonicalMemoryIsDeterminedByItsBytes :
    Memory.wf [(0, 1), (4095, 2)] ∧ ∀ a, Memory.read [(0, 1), (4095, 2)] a = Memory.read [(0, 1), (4095, 2)] a :=
  ⟨by decide, fun _ => rfl⟩

theorem witness_EncodeOfDecodeIsTheWord : decodeWord 0x00221960 = .ok (.add 3 1 2 5) := by decide

/-- The latch flag clear; set with a destination; set with register 0. -/
theorem witness_WriteBackWritesOnlyTheLatchedRegister :
    State.reset.latch.regWrite = false ∧ (latchResult 5 7 State.reset).latch.regWrite = true ∧
      (latchResult 0 7 State.reset).latch.regWrite = true ∧ (latchResult 0 7 State.reset).latch.dest = 0 := by decide

/-- A step of an ADD to register 31, from a state whose stored register 0 is 0. -/
theorem witness_StepWritesOnlyTheDestinationRegister :
    (∃ t, step (testState 0 5 7 [(0, 0x0022F820)]) = .next t) ∧
      decodeWord (fetchWord (testState 0 5 7 [(0, 0x0022F820)])) = .ok (.add 31 1 2 0) ∧
      destOf (.add 31 1 2 0) ≠ some 30 ∧ (testState 0 5 7 [(0, 0x0022F820)]).regs[0] = 0 :=
  ⟨⟨_, rfl⟩, by decide, by decide, rfl⟩

/-- At the last fetchable address. -/
theorem witness_StepRunsTheDecodedInstruction :
    let s := testState 4092 5 7 [(4092, 0x00221820)]
    s.status = .running ∧ s.pc.toNat ≤ 4092 ∧
      decodeWord (s.mem.read s.pc.toNat ++ s.mem.read (s.pc.toNat + 1) ++ s.mem.read (s.pc.toNat + 2) ++
        s.mem.read (s.pc.toNat + 3)) = .ok (.add 3 1 2 0) := by decide

theorem witness_SentinelHaltIsNotCounted :
    (testState 4092 0 0 []).status = .running ∧ (testState 4092 0 0 []).pc.toNat ≤ 4092 ∧
      fetchWord (testState 4092 0 0 []) = 0 := by decide

/-- At the first pc out of bounds, and at the last. -/
theorem witness_BoundHaltChangesOnlyTheStatus :
    (testState 4093 0 0 []).status = .running ∧ 4092 < (testState 4093 0 0 []).pc.toNat ∧
      4092 < (testState 0xFFFFFFFF 0 0 []).pc.toNat := by decide

/-- One word of each kind: an unrecognized funct and an unrecognized opcode. -/
theorem witness_UnrecognizedWordHasNoEffect :
    ((testState 4092 0 0 [(4092, 1)]).status = .running ∧ (testState 4092 0 0 [(4092, 1)]).pc.toNat ≤ 4092) ∧
      Unrecognized (fetchWord (testState 4092 0 0 [(4092, 1)])) ∧
      Unrecognized (fetchWord (testState 0 0 0 [(0, 0xFFFFFFFF)])) := by
  refine ⟨by decide, Or.inl (by decide), Or.inr (by decide)⟩

theorem witness_StepCountsEveryExecutedWord : ∃ t, step (testState 4092 0 0 [(4092, 0x20)]) = .next t := ⟨_, rfl⟩

/-- The clauses: a pc out of bounds, a taken BEQ, and a BEQ not taken. -/
theorem witness_PcChangesOnlyByFetchAndTakenBranch :
    ((∃ t, step (testState 4093 0 0 []) = .next t) ∧ 4092 < (testState 4093 0 0 []).pc.toNat) ∧
    ((∃ t, step (testState 4092 3 3 [(4092, 0x10228000)]) = .next t) ∧ (testState 4092 3 3 [(4092, 0x10228000)]).pc.toNat ≤ 4092 ∧
      decodeWord (fetchWord (testState 4092 3 3 [(4092, 0x10228000)])) = .ok (.beq 1 2 0x8000)) ∧
    ((∃ t, step (testState 4092 3 4 [(4092, 0x10228000)]) = .next t) ∧
      readReg (testState 4092 3 4 [(4092, 0x10228000)]) 1 ≠ readReg (testState 4092 3 4 [(4092, 0x10228000)]) 2) :=
  ⟨⟨⟨_, rfl⟩, by decide⟩, ⟨⟨_, rfl⟩, by decide, by decide⟩, ⟨_, rfl⟩, by decide⟩

/-- `SW R1, 4092(R0)` changes the byte at 4095. -/
theorem witness_OnlyAStoreChangesMemory :
    ∃ t, step (testState 0 1 0 [(0, 0xAC010FFC)]) = .next t ∧
      t.mem.read 4095 ≠ (testState 0 1 0 [(0, 0xAC010FFC)]).mem.read 4095 := ⟨_, rfl, by decide⟩

/-- A faulting LW and a faulting SW, each at its first address out of bounds. -/
theorem witness_OnlyLoadsAndStoresFaultAndPrecisely :
    (∃ t info, step (testState 0 0 0 [(0, 0x8C020FFD)]) = .next t ∧ t.status = .faulted info) ∧
    (∃ t info, step (testState 0 0 0 [(0, 0xAC020FFD)]) = .next t ∧ t.status = .faulted info) :=
  ⟨⟨_, _, rfl, rfl⟩, ⟨_, _, rfl, rfl⟩⟩

/-- A running state, a halted one and a faulted one. -/
theorem witness_RunningMachineStepsAndStoppedMachineDoesNot :
    State.reset.status = .running ∧ (haltMachine .bound State.reset).status = .halted .bound ∧
      (raiseMemFault ⟨.load, 4093, 0, 0x8C000FFD⟩ State.reset).status = .faulted ⟨.load, 4093, 0, 0x8C000FFD⟩ := by decide

theorem witness_ExecKeepsTheLatchFieldsItDoesNotWrite :
    ∃ t, exec (.lw 0 0 4092) (testState 4 0 0 []) = .next t := ⟨_, exec_lw_inBounds 0 (by decide)⟩

/-- An ADDI and then the sentinel. -/
theorem witness_CycleCounterIsMonotoneOverRuns :
    ∃ t, reachesIn 2 (testState 0 0 0 [(0, 0x20020005)]) t := ⟨_, _, rfl, _, rfl, rfl⟩

/-- The last word that loads, and the byte just past a one-word image. -/
theorem witness_LaunchPlacesTheImage :
    (1023 < 1024 ∧ (List.replicate 1024 (0x20 : Word))[1023]? = some 0x20) ∧ 4 * min [(0x20 : Word)].length 1024 ≤ 4 := by
  refine ⟨⟨by decide, ?_⟩, by decide⟩
  rw [List.getElem?_replicate]
  rfl

theorem witness_StepKeepsTheInvariant :
    (testState 0 5 7 [(0, 0x00221820)]).Inv ∧ ∃ t, step (testState 0 5 7 [(0, 0x00221820)]) = .next t :=
  ⟨⟨rfl, rfl, by decide, trivial⟩, _, rfl⟩

/-- A state one step past the launch of a one-word image. -/
theorem witness_ReachableStatesMeetTheInvariant : ∃ t, Reachable t ∧ t.pc = 4 := ⟨_, ⟨[0x20], 1, _, rfl, rfl⟩, rfl⟩

theorem witness_NoLoadOrStoreInMemoryMeansSafeRun :
    State.reset.pc.toNat % 4 = 0 ∧ (∀ info, State.reset.status ≠ .faulted info) ∧
    ∀ a, a ≤ 4092 → a % 4 = 0 → ∀ rt rs imm,
      decodeWord (State.reset.mem.readWord a) ≠ .ok (.lw rt rs imm) ∧
      decodeWord (State.reset.mem.readWord a) ≠ .ok (.sw rt rs imm) := by
  refine ⟨rfl, fun _ h => (nomatch h), fun a _ _ rt rs imm => ?_⟩
  have h : decodeWord (State.reset.mem.readWord a) = .ok .halt := by
    show decodeWord (wordOfBytes unlistedByte unlistedByte unlistedByte unlistedByte) = .ok .halt
    decide
  rw [h]
  exact ⟨fun h => (nomatch h), fun h => (nomatch h)⟩

end Sys2Proof.Tests
end

section
/-! The register read and the state after reset (spec/10_state.md R22 and R36). -/

namespace Sys2Proof.Machine

/-! ## The fields of the reset state that R36 specifies -/

@[simp] theorem State.reset_reg (r : RegIdx) : State.reset.regs[r.toNat]'r.isLt = 0 :=
  Vector.getElem_replicate r.isLt

@[simp] theorem State.reset_pc : State.reset.pc = 0 := rfl

/-- Reset memory lists no address, so each one reads as the unlisted byte. -/
@[simp] theorem State.reset_mem_read (a : Nat) : State.reset.mem.read a = 0 := Memory.read_nil a

@[simp] theorem State.reset_cycles : State.reset.cycles = 0 := rfl

@[simp] theorem State.reset_status : State.reset.status = .running := rfl

/-! ## The obligations -/

/-- Settles O24, by the two rules of the register read. -/
theorem registerReadIsStoredOrZero : Obligations.RegisterReadIsStoredOrZero := by
  intro s i
  rcases eq_or_ne i 0 with rfl | hi
  · rw [readReg_zero, if_pos rfl]
  · rw [readReg_of_ne hi, if_neg hi]

/-- Settles O40, from the value of each field of the reset state. -/
theorem resetClearsEverything : Obligations.ResetClearsEverything :=
  ⟨State.reset_reg, State.reset_pc, State.reset_mem_read, State.reset_cycles, State.reset_status⟩

end Sys2Proof.Machine
end

section
/-! The word write byte by byte, and the bound check of SW before it (spec/20_memory.md R53 and R57). -/

namespace Sys2Proof.Machine

/-! ## What each address reads after a word write -/

/-- Each of the four bytes written is the value's byte in memory order. -/
theorem Memory.read_writeWord_add (m : Memory) (a : Nat) (v : Word) {i : Nat} (hi : i < 4) :
    (m.writeWord a v).read (a + i) = byteOfWord v i := by
  rw [Memory.read_writeWord, if_pos (by omega), Nat.add_sub_cancel_left]

/-- The frame of a word write. -/
theorem Memory.read_writeWord_of_not_mem (m : Memory) {a k : Nat} (v : Word) (h : ¬(a ≤ k ∧ k < a + 4)) :
    (m.writeWord a v).read k = m.read k := by
  rw [Memory.read_writeWord, if_neg h]

/-! ## SW out of bounds -/

theorem inBounds_eq_false_iff (a : Word) : inBounds a = false ↔ 4092 < a.toNat := by
  rw [← Bool.not_eq_true, inBounds_iff, not_le]

/-- An SW that fails the bound check answers a state with the memory it was given. -/
theorem exec_sw_outOfBounds_mem (rt : RegIdx) {rs : RegIdx} {imm : Imm16} {s : State}
    (h : 4092 < (effectiveAddress s rs imm).toNat) : ∃ t, exec (.sw rt rs imm) s = .next t ∧ t.mem = s.mem :=
  ⟨_, exec_sw_outOfBounds rt ((inBounds_eq_false_iff _).mpr h), rfl⟩

/-! ## The obligation -/

/-- Settles O15: the address read is one of the four that the write names or lies outside them, and the bound check of SW
comes before the write. -/
theorem memWriteIsBigEndian : Obligations.MemWriteIsBigEndian := by
  refine ⟨fun m a k v _ => ?_, fun rt rs imm s hEA => ?_⟩
  · split_ifs with h0 h1 h2 h3
    · subst h0; exact Memory.read_writeWord_add m k v (i := 0) (by decide)
    · subst h1; exact Memory.read_writeWord_add m a v (i := 1) (by decide)
    · subst h2; exact Memory.read_writeWord_add m a v (i := 2) (by decide)
    · subst h3; exact Memory.read_writeWord_add m a v (i := 3) (by decide)
    · exact Memory.read_writeWord_of_not_mem m v (by omega)
  · obtain ⟨t, hstep, hmem⟩ := exec_sw_outOfBounds_mem rt hEA
    exact ⟨t, hstep, fun b => by rw [hmem]⟩

end Sys2Proof.Machine
end

section
/-! The decoder's fields as numbers, and the opcode map as a condition on the opcode and function code
(spec/30_encoding.md R81 and R87). -/

namespace Sys2Proof.Machine

/-! ## The fields as numbers -/

/-- A bit field is a quotient's remainder. -/
theorem toNat_extractLsb'_eq_div_mod {n : Nat} (w : BitVec n) (start len : Nat) :
    (w.extractLsb' start len).toNat = w.toNat / 2 ^ start % 2 ^ len := by
  rw [BitVec.extractLsb'_toNat, Nat.shiftRight_eq_div_pow]

/-- The opcode is the top field, so no remainder is left to take. -/
theorem fieldsOf_opcode_toNat (w : Word) : (fieldsOf w).opcode.toNat = w.toNat / 2 ^ 26 := by
  have htop : w.toNat / 2 ^ 26 < 2 ^ 6 := by omega
  rw [fieldsOf, toNat_extractLsb'_eq_div_mod, Nat.mod_eq_of_lt htop]

/-- The lowest field of a word needs no quotient. -/
theorem toNat_extractLsb'_zero_eq_mod {n : Nat} (w : BitVec n) (len : Nat) :
    (w.extractLsb' 0 len).toNat = w.toNat % 2 ^ len := by
  rw [toNat_extractLsb'_eq_div_mod, pow_zero, Nat.div_one]

/-- The sign extension keeps the signed value (R84). -/
theorem immediate_toInt (imm : Imm16) : (immediate imm).toInt = imm.toInt :=
  BitVec.toInt_signExtend_of_le (by decide)

/-- A 16-bit field read in two's complement. -/
theorem imm16_toInt_eq_ite (imm : Imm16) :
    imm.toInt = if imm.toNat < 2 ^ 15 then (imm.toNat : Int) else (imm.toNat : Int) - 2 ^ 16 := by
  rw [BitVec.toInt_eq_toNat_cond]
  split_ifs <;> omega

/-! ## What the decoder answers -/

/-- The six rows below the sentinel, each with the instruction made of the word's fields (spec/40_cycle.md R117). -/
theorem dispatchFields_eq_ok_iff (f : Fields) (i : Instr) :
    dispatchFields f = .ok i ↔
      (f.opcode = opcodeRType ∧ f.funct = functAdd ∧ .add f.rd f.rs f.rt f.shamt = i) ∨
      (f.opcode = opcodeRType ∧ f.funct = functSub ∧ .sub f.rd f.rs f.rt f.shamt = i) ∨
      (f.opcode = opcodeAddi ∧ .addi f.rt f.rs f.imm = i) ∨
      (f.opcode = opcodeBeq ∧ .beq f.rs f.rt f.imm = i) ∨
      (f.opcode = opcodeLw ∧ .lw f.rt f.rs f.imm = i) ∨
      (f.opcode = opcodeSw ∧ .sw f.rt f.rs f.imm = i) := by
  unfold dispatchFields
  split_ifs <;> simp_all

/-- The test of the whole word adds only the sentinel, whose fields alone the dispatch would reject (R86). -/
theorem decodeWord_eq_ok_iff (w : Word) (i : Instr) :
    decodeWord w = .ok i ↔ (w = haltWord ∧ .halt = i) ∨ dispatchFields (fieldsOf w) = .ok i := by
  rcases eq_or_ne w haltWord with rfl | hw
  · have hreject : dispatchFields (fieldsOf haltWord) = .error (.unrecognizedFunct 0) := by decide
    rw [decodeWord_haltWord, hreject]
    simp
  · rw [decodeWord_of_ne hw, or_iff_right fun ⟨hhalt, _⟩ => hw hhalt]

/-! ## The masks -/

/-- The sentinel's mask keeps the whole word. -/
theorem and_wordMask_eq_iff (w v : Word) : w &&& 0xFFFFFFFF = v ↔ w = v := by
  rw [show (0xFFFFFFFF : Word) = BitVec.allOnes 32 from rfl, BitVec.and_allOnes]

/-- The I-format mask keeps the opcode. -/
theorem and_opcodeMask (w : Word) : w &&& 0xFC000000 = (fieldsOf w).opcode ++ 0#26 := by
  refine BitVec.eq_of_getLsbD_eq fun k hk => ?_
  simp only [fieldsOf, BitVec.getLsbD_and, BitVec.getLsbD_append, BitVec.getLsbD_extractLsb']
  interval_cases k <;> simp

/-- The R-format mask keeps the opcode and the function code. -/
theorem and_opcodeFunctMask (w : Word) :
    w &&& 0xFC00003F = (fieldsOf w).opcode ++ 0#20 ++ (fieldsOf w).funct := by
  refine BitVec.eq_of_getLsbD_eq fun k hk => ?_
  simp only [fieldsOf, BitVec.getLsbD_and, BitVec.getLsbD_append, BitVec.getLsbD_extractLsb']
  interval_cases k <;> simp

/-- A word matches an I-format row exactly when it has the row's opcode. -/
theorem and_opcodeMask_eq_iff (w : Word) (opcode : BitVec 6) :
    w &&& 0xFC000000 = opcode ++ 0#26 ↔ (fieldsOf w).opcode = opcode := by
  rw [and_opcodeMask]
  exact BitVec.append_left_inj _

/-- A word matches an R-format row exactly when it has the row's opcode and function code. -/
theorem and_opcodeFunctMask_eq_iff (w : Word) (opcode funct : BitVec 6) :
    w &&& 0xFC00003F = opcode ++ 0#20 ++ funct ↔ (fieldsOf w).opcode = opcode ∧ (fieldsOf w).funct = funct := by
  rw [and_opcodeFunctMask]
  refine ⟨fun h => ?_, fun ⟨hop, hfn⟩ => by rw [hop, hfn]⟩
  have hfn : (fieldsOf w).funct = funct := by
    simpa only [BitVec.extractLsb'_append_eq_right] using congrArg (BitVec.extractLsb' 0 6) h
  rw [hfn] at h
  exact ⟨(BitVec.append_left_inj _).mp ((BitVec.append_left_inj _).mp h), hfn⟩

/-! ## The obligations -/

/-- Settles O17: each field as a quotient's remainder, the immediate through its sign extension. -/
theorem decodedFieldsAreTheWordsBits : Obligations.DecodedFieldsAreTheWordsBits := by
  intro w
  have himm : (fieldsOf w).imm.toNat = w.toNat % 2 ^ 16 := toNat_extractLsb'_zero_eq_mod w 16
  exact ⟨fieldsOf_opcode_toNat w, toNat_extractLsb'_eq_div_mod w 21 5, toNat_extractLsb'_eq_div_mod w 16 5,
    toNat_extractLsb'_eq_div_mod w 11 5, toNat_extractLsb'_eq_div_mod w 6 5, toNat_extractLsb'_zero_eq_mod w 6,
    by rw [immediate_toInt, imm16_toInt_eq_ite, himm]⟩

/-- Settles O19: the decoder's answers and the masks both say which opcode, and in an R-format word which function code,
the word has. -/
theorem decodeFollowsTheOpcodeMap : Obligations.DecodeFollowsTheOpcodeMap := by
  intro w
  refine ⟨?halt, ?add, ?sub, ?addi, ?beq, ?lw, ?sw⟩
  case halt => simpa [decodeWord_eq_ok_iff, dispatchFields_eq_ok_iff] using (and_wordMask_eq_iff w haltWord).symm
  case add =>
    simpa [decodeWord_eq_ok_iff, dispatchFields_eq_ok_iff] using
      (and_opcodeFunctMask_eq_iff w opcodeRType functAdd).symm
  case sub =>
    simpa [decodeWord_eq_ok_iff, dispatchFields_eq_ok_iff] using
      (and_opcodeFunctMask_eq_iff w opcodeRType functSub).symm
  case addi => simpa [decodeWord_eq_ok_iff, dispatchFields_eq_ok_iff] using (and_opcodeMask_eq_iff w opcodeAddi).symm
  case beq => simpa [decodeWord_eq_ok_iff, dispatchFields_eq_ok_iff] using (and_opcodeMask_eq_iff w opcodeBeq).symm
  case lw => simpa [decodeWord_eq_ok_iff, dispatchFields_eq_ok_iff] using (and_opcodeMask_eq_iff w opcodeLw).symm
  case sw => simpa [decodeWord_eq_ok_iff, dispatchFields_eq_ok_iff] using (and_opcodeMask_eq_iff w opcodeSw).symm

end Sys2Proof.Machine
end

section
/-! What a cycle counts, and the cycle of an unrecognized word (spec/40_cycle.md R115 and R118). -/

namespace Sys2Proof.Machine

open Sys2Proof.Claims

/-! ## The words that the decoder rejects -/

/-- Opcode 0 with a function code other than the two of the R-format rows. -/
theorem dispatchFields_of_unrecognizedFunct {f : Fields} (hop : f.opcode = opcodeRType) (hadd : f.funct ≠ functAdd)
    (hsub : f.funct ≠ functSub) : dispatchFields f = .error (.unrecognizedFunct f.funct) := by
  rw [dispatchFields, if_pos hop, if_neg hadd, if_neg hsub]

/-- An opcode that no row has. -/
theorem dispatchFields_of_unrecognizedOpcode {f : Fields} (hR : f.opcode ≠ opcodeRType) (haddi : f.opcode ≠ opcodeAddi)
    (hbeq : f.opcode ≠ opcodeBeq) (hlw : f.opcode ≠ opcodeLw) (hsw : f.opcode ≠ opcodeSw) :
    dispatchFields f = .error (.unrecognizedOpcode f.opcode) := by
  rw [dispatchFields, if_neg hR, if_neg haddi, if_neg hbeq, if_neg hlw, if_neg hsw]

/-- The word's two kinds of being unrecognized, each read as a condition on the fields that the dispatch examines (R88). -/
theorem exists_decodeWord_eq_error_of_unrecognized {w : Word} (h : Unrecognized w) : ∃ e, decodeWord w = .error e := by
  have hop : (fieldsOf w).opcode.toNat = w.toNat / 2 ^ 26 := fieldsOf_opcode_toNat w
  have hfn : (fieldsOf w).funct.toNat = w.toNat % 2 ^ 6 := toNat_extractLsb'_zero_eq_mod w 6
  rcases h with ⟨h0, hadd, hsub, hw⟩ | ⟨h0, h4, h8, h35, h43⟩
  · rw [← hop] at h0
    rw [← hfn] at hadd hsub
    exact ⟨_, (decodeWord_of_ne hw).trans (dispatchFields_of_unrecognizedFunct (BitVec.eq_of_toNat_eq h0)
      (BitVec.toNat_ne_iff_ne.mp hadd) (BitVec.toNat_ne_iff_ne.mp hsub))⟩
  · rw [← hop] at h0 h4 h8 h35 h43
    have hR : (fieldsOf w).opcode ≠ opcodeRType := BitVec.toNat_ne_iff_ne.mp h0
    exact ⟨_, (decodeWord_of_ne (ne_haltWord (.inl hR))).trans (dispatchFields_of_unrecognizedOpcode hR
      (BitVec.toNat_ne_iff_ne.mp h8) (BitVec.toNat_ne_iff_ne.mp h4) (BitVec.toNat_ne_iff_ne.mp h35)
      (BitVec.toNat_ne_iff_ne.mp h43))⟩

/-- The sentinel is no rejected word. -/
theorem ne_haltWord_of_decodeWord_eq_error {w : Word} {e : DecodeReject} (h : decodeWord w = .error e) :
    w ≠ haltWord := by
  rintro rfl
  rw [decodeWord_haltWord] at h
  cases h

/-- No dispatched word reads as the halt instruction. -/
theorem decodeWord_eq_ok_halt_iff (w : Word) : decodeWord w = .ok .halt ↔ w = haltWord := by
  simp [decodeWord_eq_ok_iff, dispatchFields_eq_ok_iff]

/-! ## The cycle of a rejected word -/

/-- Fetch and the count, then a cycle whose latch flags are all clear. -/
theorem step_of_decodeWord_eq_error {s : State} {e : DecodeReject} (hrun : s.status = .running)
    (hpc : inBounds s.pc = true) (h : decodeWord (fetchWord s) = .error e) :
    step s = .next (clearLatchFlags (countCycle (advancePc s))) := by
  simp only [step, hrun, driverCycle, if_pos hpc, runWord, h]
  exact completeCycle_noEffect _ _

/-! ## Nothing counts after the driver's count -/

@[simp] theorem writeBack_cycles (s : State) : (writeBack s).cycles = s.cycles := by
  obtain ⟨_, h⟩ | ⟨_, h⟩ := writeBack_cases s
  · rw [h]
  · rw [h, writeReg_cycles]

/-- Memory Access, where it does not fault, keeps the counter. -/
theorem cycles_of_memoryAccess_eq_ok {w : Word} {s u : State} (h : memoryAccess w s = .ok u) :
    u.cycles = s.cycles := by
  obtain ⟨_, _, hok⟩ | ⟨_, _, _, hok⟩ | ⟨_, _, _, hok⟩ | ⟨_, _, _, hok⟩ | ⟨_, _, herr⟩ | ⟨_, _, _, herr⟩ :=
    memoryAccess_cases w s
  case inr.inr.inr.inr.inl | inr.inr.inr.inr.inr => rw [herr] at h; cases h
  all_goals rw [hok] at h; cases h; rfl

/-- The rest of a cycle after Execute keeps the counter, whether or not the access faults. -/
theorem cycles_of_completeCycle_eq_next {w : Word} {s t : State} (h : completeCycle w s = .next t) :
    t.cycles = s.cycles := by
  unfold completeCycle at h
  split at h
  · next u hu =>
    cases h
    rw [writeBack_cycles, cycles_of_memoryAccess_eq_ok hu]
  · cases h
    rw [raiseMemFault_cycles]

/-- No instruction's own meaning counts. -/
theorem cycles_of_exec_eq_next {i : Instr} {s t : State} (h : exec i s = .next t) : t.cycles = s.cycles := by
  cases i with
  | halt =>
    rw [exec_halt] at h
    cases h
    rw [haltMachine_cycles]
  | add =>
    rw [exec, execAdd] at h
    rw [cycles_of_completeCycle_eq_next h, latchResult_cycles, clearLatchFlags_cycles]
  | sub =>
    rw [exec, execSub] at h
    rw [cycles_of_completeCycle_eq_next h, latchResult_cycles, clearLatchFlags_cycles]
  | addi =>
    rw [exec, execAddi] at h
    rw [cycles_of_completeCycle_eq_next h, latchResult_cycles, clearLatchFlags_cycles]
  | beq =>
    rw [exec, execBeq] at h
    rw [cycles_of_completeCycle_eq_next h, apply_ite State.cycles, setPc_cycles, ite_self, clearLatchFlags_cycles]
  | lw =>
    rw [exec, execLw] at h
    rw [cycles_of_completeCycle_eq_next h, latchLoad_cycles, clearLatchFlags_cycles]
  | sw =>
    rw [exec, execSw] at h
    rw [cycles_of_completeCycle_eq_next h, latchStore_cycles, clearLatchFlags_cycles]

/-- The driver counts every instruction but the halt sentinel. -/
theorem beforeExecute_of_ne_halt {i : Instr} (h : i ≠ .halt) (s : State) : beforeExecute i s = countCycle s := by
  cases i with
  | halt => exact absurd rfl h
  | add | sub | addi | beq | lw | sw => rfl

/-! ## The obligations -/

/-- Settles O31: the decoder rejects the word, and the cycle of a rejected word is Fetch, the count and clear latch
flags. -/
theorem unrecognizedWordHasNoEffect : Obligations.UnrecognizedWordHasNoEffect := by
  intro s hrun hpc hw
  obtain ⟨e, he⟩ := exists_decodeWord_eq_error_of_unrecognized hw
  exact ⟨_, step_of_decodeWord_eq_error hrun ((inBounds_iff _).mpr hpc) he, rfl, rfl, hrun, fun _ => rfl, fun _ => rfl,
    rfl, rfl, rfl⟩

/-- Settles O32: of the driver's cases only the bound halt and the sentinel leave out the count, and nothing after it
counts. -/
theorem stepCountsEveryExecutedWord : Obligations.StepCountsEveryExecutedWord := by
  intro s t h
  obtain ⟨_, ⟨hb, rfl⟩ | ⟨hb, i, hi, ht⟩ | ⟨hb, ⟨e, he⟩, rfl⟩⟩ := step_cases h
  · have hpc : 4092 < s.pc.toNat := (inBounds_eq_false_iff _).mp hb
    rw [if_neg fun hin => not_le.mpr hpc hin.1, haltMachine_cycles]
  · rw [cycles_of_exec_eq_next ht]
    rcases eq_or_ne i .halt with rfl | hne
    · have hw : fetchWord s = 0 := (decodeWord_eq_ok_halt_iff _).mp hi
      rw [if_neg fun hin => hin.2 hw, beforeExecute, advancePc_cycles]
    · have hw : fetchWord s ≠ 0 := fun hz => hne (Except.ok.inj (hi.symm.trans ((decodeWord_eq_ok_halt_iff _).mpr hz)))
      rw [if_pos ⟨(inBounds_iff _).mp hb, hw⟩, beforeExecute_of_ne_halt hne, countCycle_cycles, advancePc_cycles]
  · rw [if_pos ⟨(inBounds_iff _).mp hb, ne_haltWord_of_decodeWord_eq_error he⟩, clearLatchFlags_cycles,
      countCycle_cycles, advancePc_cycles]

end Sys2Proof.Machine
end

section
/-! ADD, SUB and ADDI: the update of the state that they share, the immediate operand, and the words of their rows
(spec/41_alu.md R151 to R153). -/

namespace Sys2Proof.Machine

open Sys2Proof.Claims

/-! ## The update that the three share -/

/-- Write-Back's target holds the written value; register 0 holds and reads 0 (spec/40_cycle.md R120). -/
theorem registerWritten_writeReg (d : RegIdx) (v : Word) (s : State) : RegisterWritten d v (writeReg d v s) := by
  refine ⟨?read, ?stored⟩
  case read =>
    rcases eq_or_ne d 0 with rfl | hd
    · rw [readReg_zero, if_pos rfl]
    · rw [readReg_writeReg, if_pos ⟨rfl, hd⟩, if_neg hd]
  case stored =>
    rintro rfl
    exact (writeReg_stored 0 0 v s).trans (by rw [if_pos rfl, if_pos rfl])

/-- Write-Back reaches no other register. -/
theorem registersSameBut_writeReg (d : RegIdx) (v : Word) (s : State) : RegistersSameBut d s (writeReg d v s) :=
  fun r hr => by rw [writeReg_stored, if_neg hr]

/-- An arithmetic arm's latch and its write-back write the result and nothing else. -/
theorem writesOnlyResult_writeReg_latchResult (d : RegIdx) (v : Word) (s : State) :
    WritesOnlyResult d v s (writeReg d v (latchResult d v (clearLatchFlags s))) := by
  have hlatch : ResultLatched d v (writeReg d v (latchResult d v (clearLatchFlags s))) := by
    simp [ResultLatched, LatchFlags]
  exact ⟨registerWritten_writeReg d v _, registersSameBut_writeReg d v _, fun _ => rfl, ⟨rfl, rfl, rfl⟩, hlatch⟩

/-! ## The immediate -/

/-- The word of the immediate's signed value is its sign extension (R84). -/
theorem immediate_eq_ofInt (imm : Imm16) : immediate imm = BitVec.ofInt 32 imm.toInt := by
  rw [← immediate_toInt, BitVec.ofInt_toInt]

/-! ## The words of the three rows -/

/-- A word of ADD's row, whatever its shamt, is the ADD of its fields. -/
theorem decodeWord_of_addRow {w : Word} (h : w &&& 0xFC00003F = 0x00000020) :
    decodeWord w =
      .ok (.add (w.extractLsb' 11 5) (w.extractLsb' 21 5) (w.extractLsb' 16 5) (w.extractLsb' 6 5)) := by
  obtain ⟨hop, hfn⟩ := (and_opcodeFunctMask_eq_iff w opcodeRType functAdd).mp h
  exact (decodeWord_eq_ok_iff w _).mpr (.inr ((dispatchFields_eq_ok_iff _ _).mpr (.inl ⟨hop, hfn, rfl⟩)))

/-- A word of SUB's row, whatever its shamt, is the SUB of its fields. -/
theorem decodeWord_of_subRow {w : Word} (h : w &&& 0xFC00003F = 0x00000022) :
    decodeWord w =
      .ok (.sub (w.extractLsb' 11 5) (w.extractLsb' 21 5) (w.extractLsb' 16 5) (w.extractLsb' 6 5)) := by
  obtain ⟨hop, hfn⟩ := (and_opcodeFunctMask_eq_iff w opcodeRType functSub).mp h
  exact (decodeWord_eq_ok_iff w _).mpr (.inr ((dispatchFields_eq_ok_iff _ _).mpr (.inr (.inl ⟨hop, hfn, rfl⟩))))

/-- A word of ADDI's row is the ADDI of its fields. -/
theorem decodeWord_of_addiRow {w : Word} (h : w &&& 0xFC000000 = 0x20000000) :
    decodeWord w = .ok (.addi (w.extractLsb' 16 5) (w.extractLsb' 21 5) (w.extractLsb' 0 16)) := by
  have hop : (fieldsOf w).opcode = opcodeAddi := (and_opcodeMask_eq_iff w opcodeAddi).mp h
  exact (decodeWord_eq_ok_iff w _).mpr (.inr ((dispatchFields_eq_ok_iff _ _).mpr (.inr (.inr (.inl ⟨hop, rfl⟩)))))

/-! ## The obligations -/

/-- Settles O2: the word is one of ADD's row, and the ALU's sum is the result latched and written back. -/
theorem addWritesWrappedSum : Obligations.AddWritesWrappedSum :=
  ⟨fun _ => decodeWord_of_addRow, fun rd rs rt shamt s =>
    ⟨_, exec_add rd rs rt shamt s, writesOnlyResult_writeReg_latchResult rd (readReg s rs + readReg s rt) s⟩⟩

/-- Settles O3: the word is one of SUB's row, and the ALU's difference is the result latched and written back. -/
theorem subWritesWrappedDifference : Obligations.SubWritesWrappedDifference :=
  ⟨fun _ => decodeWord_of_subRow, fun rd rs rt shamt s =>
    ⟨_, exec_sub rd rs rt shamt s, writesOnlyResult_writeReg_latchResult rd (readReg s rs - readReg s rt) s⟩⟩

/-- Settles O4: the word is one of ADDI's row, and the ALU's second operand is the immediate's signed value. -/
theorem addiWritesSumWithImmediate : Obligations.AddiWritesSumWithImmediate := by
  refine ⟨fun _ => decodeWord_of_addiRow, fun rt rs imm s => ⟨_, exec_addi rt rs imm s, ?_⟩⟩
  rw [← immediate_eq_ofInt]
  exact writesOnlyResult_writeReg_latchResult rt (readReg s rs + immediate imm) s

end Sys2Proof.Machine
end

section
/-! The step of a decoded word, and the target of a taken branch from the address of the BEQ itself
(spec/42_branch.md R170 and R171). -/

namespace Sys2Proof.Machine

/-! ## The cycle of a decoded word -/

/-- Fetch, then the instruction's own arm after what the driver does before it (spec/40_cycle.md R113 to R117). -/
theorem step_of_decodeWord_eq_ok {s : State} {i : Instr} (hrun : s.status = .running)
    (hpc : inBounds s.pc = true) (h : decodeWord (fetchWord s) = .ok i) :
    step s = exec i (beforeExecute i (advancePc s)) := by
  simp only [step, hrun, driverCycle, if_pos hpc, runWord, h]

/-- A taken BEQ's cycle: Fetch and the count leave the two registers compared as they were, and the target's base is the
pc that Fetch advanced. -/
theorem step_beq_taken {s : State} {rs rt : RegIdx} {imm : Imm16} (hrun : s.status = .running)
    (hpc : inBounds s.pc = true) (hdec : decodeWord (fetchWord s) = .ok (.beq rs rt imm))
    (heq : readReg s rs = readReg s rt) :
    step s = .next (setPc (branchTarget (s.pc + 4) imm) (clearLatchFlags (countCycle (advancePc s)))) :=
  (step_of_decodeWord_eq_ok hrun hpc hdec).trans (exec_beq_taken (s := countCycle (advancePc s)) heq imm)

/-! ## The target as an integer -/

/-- The offset is the word of four times the immediate's signed value (R84). -/
theorem branchOffset_eq_ofInt (imm : Imm16) : branchOffset imm = BitVec.ofInt 32 (4 * imm.toInt) := by
  rw [branchOffset, immediate_eq_ofInt, BitVec.shiftLeft_eq_mul_twoPow, mul_comm 4, BitVec.ofInt_mul]
  rfl

/-- The target's base is 4 past the address `a` of the BEQ, and the sum from `a` wraps no differently (R171). -/
theorem branchTarget_add_four (a : Word) (imm : Imm16) :
    branchTarget (a + 4) imm = BitVec.ofInt 32 (a.toNat + 4 + 4 * imm.toInt) := by
  calc branchTarget (a + 4) imm
      = a + 4 + BitVec.ofInt 32 (4 * imm.toInt) := by rw [branchTarget, aluAdd, branchOffset_eq_ofInt]
    _ = BitVec.ofInt 32 (a.toNat + 4 + 4 * imm.toInt) := by
        rw [BitVec.ofInt_add, BitVec.ofInt_add, BitVec.ofInt_natCast, BitVec.ofNat_toNat, BitVec.setWidth_eq]
        rfl

/-! ## The obligation -/

/-- Settles O6: the step is the taken BEQ's cycle, whose target is read from the BEQ's own address. -/
theorem takenBranchIsRelativeToThePcAfterFetch : Obligations.TakenBranchIsRelativeToThePcAfterFetch := by
  intro s rs rt imm hrun hpc hdec heq
  exact ⟨_, step_beq_taken hrun ((inBounds_iff _).mpr hpc) hdec heq, branchTarget_add_four s.pc imm, hrun⟩

end Sys2Proof.Machine
end

section
/-! Decode and encode are inverse to each other, and the words that the decoder rejects (spec/30_encoding.md R80 to R88). -/

namespace Sys2Proof.Machine

open Sys2Proof.Claims

/-! ## Encode, then decode -/

/-- Each row's word has the opcode, and in an R-format word the function code, that the dispatch reads back. -/
theorem decodeWord_encode (i : Instr) : decodeWord (encode i) = .ok i := by
  cases i with
  | halt => exact decodeWord_haltWord
  | add rd rs rt shamt | sub rd rs rt shamt =>
    rw [decodeWord_eq_ok_iff, dispatchFields_eq_ok_iff, encode, fieldsOf_encodeR]
    simp
  | addi rt rs imm | beq rs rt imm | lw rt rs imm | sw rt rs imm =>
    rw [decodeWord_eq_ok_iff, dispatchFields_eq_ok_iff]
    simp [encode, fieldsOf_encodeI]

/-- Decoding a word's four bytes is decoding the word; the bytes after them are left. -/
theorem decodeBytes_bytesOfWord_append {w : Word} {i : Instr} (h : decodeWord w = .ok i) (rest : List Byte) :
    decodeBytes (bytesOfWord w ++ rest) = .ok (i, rest) := by
  simp only [bytesOfWord, List.cons_append, List.nil_append, decodeBytes, wordOfBytes_bytesOfWord, h]

/-! ## Decode, then encode -/

/-- The fields of the R format, with the opcode in front, are the whole word. -/
theorem encodeR_fieldsOf {w : Word} (hop : (fieldsOf w).opcode = opcodeRType) :
    encodeR (fieldsOf w).rs (fieldsOf w).rt (fieldsOf w).rd (fieldsOf w).shamt (fieldsOf w).funct = w := by
  rw [encodeR, ← hop]
  simp (disch := rfl) only [fieldsOf, BitVec.extractLsb'_append_extractLsb'_eq_extractLsb']
  exact BitVec.extractLsb'_eq_self

/-- The fields of the I format are the whole word. -/
theorem encodeI_fieldsOf (w : Word) :
    encodeI (fieldsOf w).opcode (fieldsOf w).rs (fieldsOf w).rt (fieldsOf w).imm = w := by
  simp (disch := rfl) only [encodeI, fieldsOf, BitVec.extractLsb'_append_extractLsb'_eq_extractLsb']
  exact BitVec.extractLsb'_eq_self

/-- The dispatch drops no bit of the word: the row fixes the opcode (and the function code), the operands are the rest. -/
theorem encode_of_decodeWord_eq_ok {w : Word} {i : Instr} (h : decodeWord w = .ok i) : encode i = w := by
  rw [decodeWord_eq_ok_iff, dispatchFields_eq_ok_iff] at h
  obtain ⟨rfl, rfl⟩ | ⟨hop, hfn, rfl⟩ | ⟨hop, hfn, rfl⟩ | ⟨hop, rfl⟩ | ⟨hop, rfl⟩ | ⟨hop, rfl⟩ | ⟨hop, rfl⟩ := h
  · rfl
  · rw [encode, ← hfn, encodeR_fieldsOf hop]
  · rw [encode, ← hfn, encodeR_fieldsOf hop]
  all_goals rw [encode, ← hop, encodeI_fieldsOf]

/-! ## The rejected words -/

/-- What the dispatch recognizes neither by opcode nor, in the R format, by function code. -/
theorem dispatchFields_eq_error_iff (f : Fields) :
    (∃ e, dispatchFields f = .error e) ↔
      (f.opcode = opcodeRType ∧ f.funct ≠ functAdd ∧ f.funct ≠ functSub) ∨
      (f.opcode ≠ opcodeRType ∧ f.opcode ≠ opcodeBeq ∧ f.opcode ≠ opcodeAddi ∧ f.opcode ≠ opcodeLw ∧
        f.opcode ≠ opcodeSw) := by
  unfold dispatchFields
  split_ifs <;> simp_all

/-- A rejected word is not the sentinel, so what rejects it is the dispatch on its two fields. -/
theorem unrecognized_of_decodeWord_eq_error {w : Word} {e : DecodeReject} (h : decodeWord w = .error e) :
    Unrecognized w := by
  have hw : w ≠ haltWord := ne_haltWord_of_decodeWord_eq_error h
  rw [decodeWord_of_ne hw] at h
  have hop : (fieldsOf w).opcode.toNat = w.toNat / 2 ^ 26 := fieldsOf_opcode_toNat w
  have hfn : (fieldsOf w).funct.toNat = w.toNat % 2 ^ 6 := toNat_extractLsb'_zero_eq_mod w 6
  simp only [Unrecognized, ← hop, ← hfn]
  obtain ⟨h0, hadd, hsub⟩ | ⟨h0, h4, h8, h35, h43⟩ := (dispatchFields_eq_error_iff _).mp ⟨e, h⟩
  · exact .inl ⟨congrArg BitVec.toNat h0, BitVec.toNat_ne_iff_ne.mpr hadd, BitVec.toNat_ne_iff_ne.mpr hsub, hw⟩
  · exact .inr ⟨BitVec.toNat_ne_iff_ne.mpr h0, BitVec.toNat_ne_iff_ne.mpr h4, BitVec.toNat_ne_iff_ne.mpr h8,
      BitVec.toNat_ne_iff_ne.mpr h35, BitVec.toNat_ne_iff_ne.mpr h43⟩

/-! ## The obligations -/

/-- Settles O21, by the case of each row: the word first, then its four bytes. -/
theorem decodeOfEncodeIsTheInstruction : Obligations.DecodeOfEncodeIsTheInstruction :=
  fun i rest => ⟨decodeWord_encode i, decodeBytes_bytesOfWord_append (decodeWord_encode i) rest⟩

/-- Settles O22: the fields cut from a word, put together again, are the word. -/
theorem encodeOfDecodeIsTheWord : Obligations.EncodeOfDecodeIsTheWord :=
  fun _ _ => encode_of_decodeWord_eq_ok

/-- Settles O20, from the two directions. -/
theorem decodeRejectsExactlyTheUnrecognizedWords : Obligations.DecodeRejectsExactlyTheUnrecognizedWords :=
  fun _ => ⟨fun ⟨_, he⟩ => unrecognized_of_decodeWord_eq_error he, exists_decodeWord_eq_error_of_unrecognized⟩

/-- Settles O23: the decoder evaluated on each of the eleven words. -/
theorem specSampleWordsDecode : Obligations.SpecSampleWordsDecode := by
  refine ⟨?_, ?_, ?_, ?_, ?_, ?_, ?_, ?_, ?_, ?_, ?_⟩ <;> decide

end Sys2Proof.Machine
end

section
/-! The ALU's results as exact integers, and the three sums it makes for operands: the immediate's word, the branch target
and the effective address (spec/41_alu.md R150 and R154, spec/30_encoding.md R84, spec/43_load_store.md R180). -/

namespace Sys2Proof.Machine

/-! ## The ALU -/

/-- The sum is the low 32 bits of the exact signed sum (R154). -/
theorem aluAdd_eq_ofInt (a b : Word) : aluAdd a b = BitVec.ofInt 32 (a.toInt + b.toInt) := by
  rw [BitVec.ofInt_add, BitVec.ofInt_toInt, BitVec.ofInt_toInt, aluAdd]

/-- The difference is the low 32 bits of the exact signed difference (R154). -/
theorem aluSub_eq_ofInt (a b : Word) : aluSub a b = BitVec.ofInt 32 (a.toInt - b.toInt) := by
  rw [sub_eq_add_neg, BitVec.ofInt_add, BitVec.ofInt_neg, BitVec.ofInt_toInt, BitVec.ofInt_toInt, aluSub,
    BitVec.sub_eq_add_neg]

theorem aluEq_iff (a b : Word) : aluEq a b = true ↔ a = b := beq_iff_eq

/-! ## The immediate and the branch offset -/

/-- A 16-bit field read in two's complement lies between its two extremes (R84). -/
theorem imm16_toInt_mem (imm : Imm16) : -32768 ≤ imm.toInt ∧ imm.toInt ≤ 32767 := by
  have hlo := imm.le_toInt
  have hhi := imm.toInt_lt
  omega

/-- The offset is the field with two zero bits below it, sign-extended (R84). -/
theorem branchOffset_eq_signExtend_append (imm : Imm16) : branchOffset imm = (imm ++ 0#2).signExtend 32 := by
  rw [branchOffset_eq_ofInt, ← BitVec.ofInt_toInt (x := (imm ++ 0#2).signExtend 32),
    BitVec.toInt_signExtend_of_le (by decide), BitVec.toInt_append_zero]
  rfl

/-- Four times the immediate fits 32 bits, so the offset's signed value is exact. -/
theorem branchOffset_toInt (imm : Imm16) : (branchOffset imm).toInt = 4 * imm.toInt := by
  rw [branchOffset_eq_signExtend_append, BitVec.toInt_signExtend_of_le (by decide), BitVec.toInt_append_zero]
  rfl

theorem branchTarget_eq (p : Word) (imm : Imm16) : branchTarget p imm = p + BitVec.ofInt 32 (4 * imm.toInt) := by
  rw [branchTarget, aluAdd, branchOffset_eq_ofInt]

/-- The offset's two lowest bits are zero, and 2^32 is a multiple of 4 (R174). -/
theorem branchTarget_mod_four {p : Word} (hp : p.toNat % 4 = 0) (imm : Imm16) :
    (branchTarget p imm).toNat % 4 = 0 := by
  rw [branchTarget, aluAdd, branchOffset, BitVec.toNat_add, BitVec.toNat_shiftLeft, Nat.shiftLeft_eq]
  omega

/-! ## The effective address -/

theorem effectiveAddress_eq_ofInt (s : State) (rs : RegIdx) (imm : Imm16) :
    effectiveAddress s rs imm = BitVec.ofInt 32 ((readReg s rs).toInt + imm.toInt) := by
  rw [effectiveAddress, aluAdd_eq_ofInt, immediate_toInt]

/-- An integer out of bounds by less than 2^32 does not wrap into bounds. -/
theorem inBounds_ofInt_iff {v : Int} (hlo : 4092 - 2 ^ 32 < v) (hhi : v < 2 ^ 32) :
    inBounds (BitVec.ofInt 32 v) = true ↔ 0 ≤ v ∧ v ≤ 4092 := by
  rw [inBounds_iff, BitVec.toNat_ofInt]
  omega

/-! ## The obligations -/

/-- Settles O1, from the ALU's definitions and its exact signed results. -/
theorem aluWrapsExactResults : Obligations.AluWrapsExactResults := by
  refine fun a b => ⟨BitVec.toNat_add a b, ?natSub, ?complement, aluAdd_eq_ofInt a b, aluSub_eq_ofInt a b, ?bits⟩
  case natSub =>
    rw [aluSub, BitVec.toNat_sub]
    omega
  case complement =>
    rw [aluSub, BitVec.sub_eq_add_neg, BitVec.neg_eq_not_add, add_assoc]
    rfl
  case bits => exact (aluEq_iff a b).trans ⟨fun h _ _ => by rw [h], fun h => BitVec.eq_of_getLsbD_eq h⟩

/-- Settles O7: a multiple of 4 is added to a multiple of 4. -/
theorem branchTargetStaysAligned : Obligations.BranchTargetStaysAligned :=
  fun _ imm hp => branchTarget_mod_four hp imm

/-- Settles O8: a signed word and a signed immediate are too small for their sum to wrap into bounds. -/
theorem effectiveAddressInBoundsExactly : Obligations.EffectiveAddressInBoundsExactly := by
  intro s rs imm
  have hlo := (readReg s rs).le_toInt
  have hhi := (readReg s rs).toInt_lt
  obtain ⟨himmLo, himmHi⟩ := imm16_toInt_mem imm
  rw [effectiveAddress_eq_ofInt]
  exact inBounds_ofInt_iff (by omega) (by omega)

/-- Settles O18: the ranges are those of the 16-bit field and of four times it. -/
theorem immediateAndBranchOffsetRanges : Obligations.ImmediateAndBranchOffsetRanges := by
  intro imm
  obtain ⟨hlo, hhi⟩ := imm16_toInt_mem imm
  rw [immediate_toInt, branchOffset_toInt]
  exact ⟨rfl, hlo, hhi, rfl, branchOffset_eq_signExtend_append imm, by omega, by omega⟩

end Sys2Proof.Machine
end

section
/-! Memory in canonical form is its bytes, and the program load word by word (spec/10_state.md R32,
spec/70_reset_and_hazards.md R232). -/

namespace Sys2Proof.Machine

/-! ## The canonical form -/

/-- The rest of a canonical memory is canonical. -/
theorem Memory.wf_of_cons {c : Host.Cell} {m : Memory} (h : Memory.wf (c :: m)) : m.wf :=
  ⟨(List.pairwise_cons.mp h.1).2, fun d hd => h.2 d (List.mem_cons_of_mem c hd)⟩

/-- A listed pair is what its address reads, since rising addresses list none twice. -/
theorem Memory.read_of_mem {m : Memory} (h : m.wf) {c : Host.Cell} (hc : c ∈ m) : m.read c.1 = c.2 := by
  induction m with
  | nil => cases hc
  | cons d m ih =>
    obtain ⟨k, v⟩ := d
    rw [Memory.read_cons]
    rcases List.mem_cons.mp hc with rfl | hcm
    · rw [if_pos rfl]
    · have hlt : k < c.1 := (List.pairwise_cons.mp h.1).1 c hcm
      rw [if_neg hlt.ne', ih (Memory.wf_of_cons h) hcm]

/-- An address that does not read as an unlisted one is listed with the byte it reads. -/
theorem Memory.mem_of_read_ne {m : Memory} {a : Nat} (h : m.read a ≠ unlistedByte) : (a, m.read a) ∈ m := by
  induction m with
  | nil => exact absurd rfl h
  | cons d m ih =>
    obtain ⟨k, v⟩ := d
    rw [Memory.read_cons] at h ⊢
    split_ifs at h ⊢ with ha
    · rw [ha]
      exact List.mem_cons_self
    · exact List.mem_cons_of_mem _ (ih h)

/-- A canonical memory lists exactly the bytes that unlisted addresses do not read as. -/
theorem Memory.mem_iff_read {m : Memory} (h : m.wf) (c : Host.Cell) :
    c ∈ m ↔ m.read c.1 = c.2 ∧ c.2 ≠ unlistedByte := by
  refine ⟨fun hc => ⟨Memory.read_of_mem h hc, (h.2 c hc).2⟩, fun ⟨hread, hne⟩ => ?_⟩
  have hmem : (c.1, m.read c.1) ∈ m := Memory.mem_of_read_ne (hread ▸ hne)
  rwa [hread] at hmem

/-! ## The program load -/

/-- One word of the load, the sizes as numerals. -/
theorem loadWords_cons (w : Word) (ws : List Word) (a : Nat) (m : Memory) :
    loadWords (w :: ws) a m = if a + 3 < 4096 then loadWords ws (a + 4) (m.writeWord a w) else m := rfl

/-- The load writes no byte below the address it starts from. -/
theorem read_loadWords_of_lt (image : List Word) {a k : Nat} (m : Memory) (hk : k < a) :
    (loadWords image a m).read k = m.read k := by
  induction image generalizing a m with
  | nil => rfl
  | cons w ws ih =>
    rw [loadWords_cons]
    split
    · rw [ih _ (by omega), Memory.read_writeWord_of_not_mem _ _ (by omega)]
    · rfl

/-- The load writes no byte past the image's last word, nor past the end of memory. -/
theorem read_loadWords_of_ge (image : List Word) {a k : Nat} (m : Memory) (ha : a % 4 = 0)
    (hk : min (a + 4 * image.length) 4096 ≤ k) : (loadWords image a m).read k = m.read k := by
  induction image generalizing a m with
  | nil => rfl
  | cons w ws ih =>
    rw [List.length_cons] at hk
    rw [loadWords_cons]
    split
    · rw [ih _ (by omega) (by omega), Memory.read_writeWord_of_not_mem _ _ (by omega)]
    · rfl

/-- The words before the `k`-th leave its place alone, and the words after it start past it. -/
theorem read_loadWords_of_getElem? {image : List Word} {k : Nat} {w : Word} (hw : image[k]? = some w) {a : Nat}
    (m : Memory) (ha : a + 4 * k + 3 < 4096) {i : Nat} (hi : i < 4) :
    (loadWords image a m).read (a + 4 * k + i) = byteOfWord w i := by
  induction image generalizing a m k with
  | nil => simp at hw
  | cons v ws ih =>
    rw [loadWords_cons, if_pos (by omega)]
    cases k with
    | zero =>
      obtain rfl : v = w := by simpa using hw
      rw [read_loadWords_of_lt _ _ (by omega), Nat.mul_zero, Nat.add_zero, Memory.read_writeWord_add _ _ _ hi]
    | succ j =>
      have hj : ws[j]? = some w := by simpa using hw
      have := ih hj (m.writeWord a v) (a := a + 4) (by omega)
      rwa [show a + 4 + 4 * j = a + 4 * (j + 1) by omega] at this

/-- The launched state's memory is the image loaded into empty memory. -/
@[simp] theorem launch_mem (image : List Word) : (launch image).mem = loadWords image 0 [] := rfl

/-- The bytes of the image's `k`-th word, where that word fits the memory. -/
theorem launch_read {image : List Word} {k : Nat} {w : Word} (hk : k < 1024) (hw : image[k]? = some w)
    {i : Nat} (hi : i < 4) : (launch image).mem.read (4 * k + i) = byteOfWord w i := by
  have := read_loadWords_of_getElem? hw (a := 0) [] (by omega) hi
  rwa [Nat.zero_add] at this

/-! ## The obligations -/

/-- Settles O16: both lists rise strictly and have the same members, those that the bytes read name. -/
theorem canonicalMemoryIsDeterminedByItsBytes : Obligations.CanonicalMemoryIsDeterminedByItsBytes :=
  fun _ _ hm hn hread => hm.1.eq_of_mem_iff hn.1 fun c => by
    rw [Memory.mem_iff_read hm, Memory.mem_iff_read hn, hread]

/-- Settles O41, from the bytes that the load writes and those it does not reach. -/
theorem launchPlacesTheImage : Obligations.LaunchPlacesTheImage := by
  refine fun image => ⟨fun k w hk hw => ?_, fun a ha => ?_, rfl⟩
  · exact ⟨launch_read hk hw (i := 0) (by decide), launch_read hk hw (i := 1) (by decide),
      launch_read hk hw (i := 2) (by decide), launch_read hk hw (i := 3) (by decide)⟩
  · rw [launch_mem, read_loadWords_of_ge image [] rfl (by omega), Memory.read_nil]

end Sys2Proof.Machine
end

section
/-! BEQ, LW, SW and the halt sentinel on the state after Fetch: what each writes, where each faults, and what it keeps
(spec/42_branch.md R170, spec/43_load_store.md R181 to R183, spec/40_cycle.md R114 and R120). -/

namespace Sys2Proof.Machine

open Sys2Proof.Claims

/-! ## The words of the three rows -/

/-- A word of BEQ's row is the BEQ of its fields. -/
theorem decodeWord_of_beqRow {w : Word} (h : w &&& 0xFC000000 = 0x10000000) :
    decodeWord w = .ok (.beq (w.extractLsb' 21 5) (w.extractLsb' 16 5) (w.extractLsb' 0 16)) := by
  have hop : (fieldsOf w).opcode = opcodeBeq := (and_opcodeMask_eq_iff w opcodeBeq).mp h
  exact (decodeWord_eq_ok_iff w _).mpr
    (.inr ((dispatchFields_eq_ok_iff _ _).mpr (.inr (.inr (.inr (.inl ⟨hop, rfl⟩))))))

/-- A word of LW's row is the LW of its fields. -/
theorem decodeWord_of_lwRow {w : Word} (h : w &&& 0xFC000000 = 0x8C000000) :
    decodeWord w = .ok (.lw (w.extractLsb' 16 5) (w.extractLsb' 21 5) (w.extractLsb' 0 16)) := by
  have hop : (fieldsOf w).opcode = opcodeLw := (and_opcodeMask_eq_iff w opcodeLw).mp h
  exact (decodeWord_eq_ok_iff w _).mpr
    (.inr ((dispatchFields_eq_ok_iff _ _).mpr (.inr (.inr (.inr (.inr (.inl ⟨hop, rfl⟩)))))))

/-- A word of SW's row is the SW of its fields. -/
theorem decodeWord_of_swRow {w : Word} (h : w &&& 0xFC000000 = 0xAC000000) :
    decodeWord w = .ok (.sw (w.extractLsb' 16 5) (w.extractLsb' 21 5) (w.extractLsb' 0 16)) := by
  have hop : (fieldsOf w).opcode = opcodeSw := (and_opcodeMask_eq_iff w opcodeSw).mp h
  exact (decodeWord_eq_ok_iff w _).mpr
    (.inr ((dispatchFields_eq_ok_iff _ _).mpr (.inr (.inr (.inr (.inr (.inr ⟨hop, rfl⟩)))))))

/-! ## The obligations on one instruction -/

/-- Settles O5, by whether the two registers are equal. -/
theorem beqWritesOnlyThePc : Obligations.BeqWritesOnlyThePc := by
  refine ⟨fun _ => decodeWord_of_beqRow, fun rs rt imm s => ?_⟩
  by_cases heq : readReg s rs = readReg s rt
  · exact ⟨_, exec_beq_taken heq imm, (branchTarget_eq s.pc imm).trans (if_pos heq).symm, fun _ => rfl, fun _ => rfl,
      rfl, rfl, rfl, rfl, rfl⟩
  · exact ⟨_, exec_beq_not_taken heq imm, (if_neg heq).symm, fun _ => rfl, fun _ => rfl, rfl, rfl, rfl, rfl, rfl⟩

/-- Settles O9: the word read at the effective address is the one written back. -/
theorem lwLoadsBigEndianWord : Obligations.LwLoadsBigEndianWord :=
  ⟨fun _ => decodeWord_of_lwRow, fun rt _ _ _ hea =>
    ⟨_, exec_lw_inBounds rt ((inBounds_iff _).mpr hea), registerWritten_writeReg rt _ _, registersSameBut_writeReg rt _ _,
      fun _ => rfl, ⟨rfl, rfl, rfl⟩, ⟨rfl, rfl, rfl⟩, rfl, rfl, rfl⟩⟩

/-- Settles O10: the bound check fails in Memory Access, before Write-Back. -/
theorem lwOutOfBoundsFaults : Obligations.LwOutOfBoundsFaults :=
  fun rt _ _ _ hea =>
    ⟨_, exec_lw_outOfBounds rt ((inBounds_eq_false_iff _).mpr hea), ⟨rfl, fun _ => rfl, fun _ => rfl, rfl, rfl⟩,
      ⟨rfl, rfl, rfl⟩, rfl, rfl, rfl⟩

/-- Settles O11: the store is one word write at the effective address. -/
theorem swStoresBigEndianWord : Obligations.SwStoresBigEndianWord := by
  refine ⟨fun _ => decodeWord_of_swRow, fun rt rs imm s hea => ?_⟩
  refine ⟨_, exec_sw_inBounds rt ((inBounds_iff _).mpr hea), ?_, ?_, ?_, ?_, ?_, fun _ => rfl, ⟨rfl, rfl, rfl⟩,
    ⟨rfl, rfl, rfl⟩, rfl, rfl⟩
  · exact Memory.read_writeWord_add _ _ _ (i := 0) (by decide)
  · exact Memory.read_writeWord_add _ _ _ (i := 1) (by decide)
  · exact Memory.read_writeWord_add _ _ _ (i := 2) (by decide)
  · exact Memory.read_writeWord_add _ _ _ (i := 3) (by decide)
  · exact fun _ => Memory.read_writeWord_of_not_mem _ _

/-- Settles O12: the bound check fails in Memory Access, before the write. -/
theorem swOutOfBoundsFaults : Obligations.SwOutOfBoundsFaults :=
  fun rt _ _ _ hea =>
    ⟨_, exec_sw_outOfBounds rt ((inBounds_eq_false_iff _).mpr hea), ⟨rfl, fun _ => rfl, fun _ => rfl, rfl, rfl⟩,
      ⟨rfl, rfl, rfl⟩, rfl, rfl⟩

/-- Settles O28: the sentinel's arm sets the status alone. -/
theorem haltSetsOnlyTheStatus : Obligations.HaltSetsOnlyTheStatus :=
  fun s => ⟨_, exec_halt s, rfl, fun _ => rfl, fun _ => rfl, rfl, rfl, rfl⟩

/-! ## What reads see after a store -/

/-- The memory that an SW in bounds leaves reads, at its effective address, the word stored. -/
theorem readWord_of_exec_sw {s t : State} {rt rs : RegIdx} {imm : Imm16}
    (hea : (effectiveAddress s rs imm).toNat ≤ 4092) (h : exec (.sw rt rs imm) s = .next t) :
    t.mem.readWord (effectiveAddress s rs imm).toNat = readReg s rt := by
  rw [exec_sw_inBounds rt ((inBounds_iff _).mpr hea)] at h
  cases h
  exact Memory.readWord_writeWord _ _ _

/-- Settles O13: the load writes back the word read at the shared address, which is the word stored. -/
theorem storeThenLoadRoundTrips : Obligations.StoreThenLoadRoundTrips := by
  intro s t rt rs imm rt' rs' imm' hea hsw heq
  have hin : inBounds (effectiveAddress t rs' imm') = true := by rw [heq, inBounds_iff]; exact hea
  refine ⟨_, exec_lw_inBounds rt' hin, ?_⟩
  rw [heq, readWord_of_exec_sw hea hsw]
  exact registerWritten_writeReg rt' _ _

/-- The sentinel in bounds: Fetch advances the pc, and the machine stops without a count (R114). -/
theorem step_of_fetchWord_eq_zero {s : State} (hrun : s.status = .running) (hpc : inBounds s.pc = true)
    (h : fetchWord s = 0) : step s = .next (haltMachine .sentinel (advancePc s)) :=
  step_of_decodeWord_eq_ok hrun hpc ((decodeWord_eq_ok_halt_iff _).mpr h)

/-- Settles O14: Fetch reads the word stored, and a zero word is the sentinel. -/
theorem laterFetchSeesStore : Obligations.LaterFetchSeesStore := by
  intro s t rt rs imm hea hsw u hmem hpc
  have hfetch : fetchWord u = readReg s rt := by rw [fetchWord, hmem, hpc, readWord_of_exec_sw hea hsw]
  have hin : inBounds u.pc = true := by rw [hpc, inBounds_iff]; exact hea
  exact ⟨hfetch, fun hzero hrun => ⟨_, step_of_fetchWord_eq_zero hrun hin (hfetch.trans hzero), rfl, rfl⟩⟩

/-! ## Write-Back and the latch -/

/-- Settles O25, by the register-write flag. -/
theorem writeBackWritesOnlyTheLatchedRegister : Obligations.WriteBackWritesOnlyTheLatchedRegister := by
  intro s
  obtain ⟨hclear, h⟩ | ⟨hset, h⟩ := writeBack_cases s
  · exact ⟨fun _ => h, fun hset => by simp [hclear] at hset⟩
  · rw [h]
    exact ⟨fun hclear => by simp [hset] at hclear, fun _ =>
      ⟨registerWritten_writeReg _ _ s, registersSameBut_writeReg _ _ s, rfl⟩⟩

/-- Settles O38, by the case of each arm: the latch it leaves names the fields it wrote. -/
theorem execKeepsTheLatchFieldsItDoesNotWrite : Obligations.ExecKeepsTheLatchFieldsItDoesNotWrite := by
  intro i s t h
  cases i with
  | halt => rw [exec_halt] at h; cases h; rfl
  | add => rw [exec_add] at h; cases h; exact ⟨rfl, rfl⟩
  | sub => rw [exec_sub] at h; cases h; exact ⟨rfl, rfl⟩
  | addi => rw [exec_addi] at h; cases h; exact ⟨rfl, rfl⟩
  | beq rs rt imm =>
    by_cases heq : readReg s rs = readReg s rt
    · rw [exec_beq_taken heq] at h; cases h; exact ⟨rfl, rfl, rfl, rfl⟩
    · rw [exec_beq_not_taken heq] at h; cases h; exact ⟨rfl, rfl, rfl, rfl⟩
  | lw rt rs imm =>
    cases hb : inBounds (effectiveAddress s rs imm)
    · rw [exec_lw_outOfBounds rt hb] at h; cases h; rfl
    · rw [exec_lw_inBounds rt hb] at h; cases h; rfl
  | sw rt rs imm =>
    cases hb : inBounds (effectiveAddress s rs imm)
    · rw [exec_sw_outOfBounds rt hb] at h; cases h; exact ⟨rfl, rfl⟩
    · rw [exec_sw_inBounds rt hb] at h; cases h; exact ⟨rfl, rfl⟩

end Sys2Proof.Machine
end

section
/-! What an instruction does to everything but the latch, as one function of the state, and what follows for a step: a
running machine always steps, a stopped one does not, and no step reads the latch it starts with (spec/10_state.md R35,
spec/40_cycle.md R112 to R121). -/

namespace Sys2Proof.Machine

open Sys2Proof.Claims

/-! ## An instruction's effect, the latch left aside -/

/-- The state that an instruction leaves, on the state after Fetch, with the latch as it was; `exec_eq_effectOf` ties it to
`exec`. -/
def effectOf (i : Instr) (s : State) : State :=
  match i with
  | .halt => haltMachine .sentinel s
  | .add rd rs rt _ => writeReg rd (aluAdd (readReg s rs) (readReg s rt)) s
  | .sub rd rs rt _ => writeReg rd (aluSub (readReg s rs) (readReg s rt)) s
  | .addi rt rs imm => writeReg rt (aluAdd (readReg s rs) (immediate imm)) s
  | .beq rs rt imm => if readReg s rs = readReg s rt then setPc (branchTarget s.pc imm) s else s
  | .lw rt rs imm =>
    if inBounds (effectiveAddress s rs imm) then writeReg rt (s.mem.readWord (effectiveAddress s rs imm).toNat) s
    else raiseMemFault ⟨.load, effectiveAddress s rs imm, s.pc - 4, encode (.lw rt rs imm)⟩ s
  | .sw rt rs imm =>
    if inBounds (effectiveAddress s rs imm) then
      { s with mem := s.mem.writeWord (effectiveAddress s rs imm).toNat (readReg s rt) }
    else raiseMemFault ⟨.store, effectiveAddress s rs imm, s.pc - 4, encode (.sw rt rs imm)⟩ s

theorem effectOf_beq_taken {rs rt : RegIdx} {s : State} (h : readReg s rs = readReg s rt) (imm : Imm16) :
    effectOf (.beq rs rt imm) s = setPc (branchTarget s.pc imm) s := if_pos h

theorem effectOf_beq_not_taken {rs rt : RegIdx} {s : State} (h : readReg s rs ≠ readReg s rt) (imm : Imm16) :
    effectOf (.beq rs rt imm) s = s := if_neg h

theorem effectOf_lw_inBounds (rt : RegIdx) {rs : RegIdx} {imm : Imm16} {s : State}
    (h : inBounds (effectiveAddress s rs imm) = true) :
    effectOf (.lw rt rs imm) s = writeReg rt (s.mem.readWord (effectiveAddress s rs imm).toNat) s := if_pos h

theorem effectOf_lw_outOfBounds (rt : RegIdx) {rs : RegIdx} {imm : Imm16} {s : State}
    (h : inBounds (effectiveAddress s rs imm) = false) :
    effectOf (.lw rt rs imm) s =
      raiseMemFault ⟨.load, effectiveAddress s rs imm, s.pc - 4, encode (.lw rt rs imm)⟩ s :=
  if_neg (Bool.not_eq_true _ ▸ h)

theorem effectOf_sw_inBounds (rt : RegIdx) {rs : RegIdx} {imm : Imm16} {s : State}
    (h : inBounds (effectiveAddress s rs imm) = true) :
    effectOf (.sw rt rs imm) s =
      { s with mem := s.mem.writeWord (effectiveAddress s rs imm).toNat (readReg s rt) } := if_pos h

theorem effectOf_sw_outOfBounds (rt : RegIdx) {rs : RegIdx} {imm : Imm16} {s : State}
    (h : inBounds (effectiveAddress s rs imm) = false) :
    effectOf (.sw rt rs imm) s =
      raiseMemFault ⟨.store, effectiveAddress s rs imm, s.pc - 4, encode (.sw rt rs imm)⟩ s :=
  if_neg (Bool.not_eq_true _ ▸ h)

/-- Every instruction answers a next state, and but for the latch it is the instruction's effect. -/
theorem exec_eq_effectOf (i : Instr) (s : State) : ∃ l, exec i s = .next { effectOf i s with latch := l } := by
  cases i with
  | halt => exact ⟨_, exec_halt s⟩
  | add rd rs rt shamt => exact ⟨_, exec_add rd rs rt shamt s⟩
  | sub rd rs rt shamt => exact ⟨_, exec_sub rd rs rt shamt s⟩
  | addi rt rs imm => exact ⟨_, exec_addi rt rs imm s⟩
  | beq rs rt imm =>
    by_cases heq : readReg s rs = readReg s rt
    · rw [effectOf_beq_taken heq]; exact ⟨_, exec_beq_taken heq imm⟩
    · rw [effectOf_beq_not_taken heq]; exact ⟨_, exec_beq_not_taken heq imm⟩
  | lw rt rs imm =>
    cases hb : inBounds (effectiveAddress s rs imm)
    · rw [effectOf_lw_outOfBounds rt hb]; exact ⟨_, exec_lw_outOfBounds rt hb⟩
    · rw [effectOf_lw_inBounds rt hb]; exact ⟨_, exec_lw_inBounds rt hb⟩
  | sw rt rs imm =>
    cases hb : inBounds (effectiveAddress s rs imm)
    · rw [effectOf_sw_outOfBounds rt hb]; exact ⟨_, exec_sw_outOfBounds rt hb⟩
    · rw [effectOf_sw_inBounds rt hb]; exact ⟨_, exec_sw_inBounds rt hb⟩

/-! ## The latch is not read -/

/-- An instruction's effect carries another latch along. -/
theorem effectOf_withLatch (i : Instr) (s : State) (l : Latch) :
    effectOf i { s with latch := l } = { effectOf i s with latch := l } := by
  cases i with
  | halt | add | sub | addi => rfl
  | beq rs rt imm =>
    by_cases heq : readReg s rs = readReg s rt
    · rw [effectOf_beq_taken heq]; exact effectOf_beq_taken (s := { s with latch := l }) heq imm
    · rw [effectOf_beq_not_taken heq]; exact effectOf_beq_not_taken (s := { s with latch := l }) heq imm
  | lw rt rs imm =>
    cases hb : inBounds (effectiveAddress s rs imm)
    · rw [effectOf_lw_outOfBounds rt hb]; exact effectOf_lw_outOfBounds (s := { s with latch := l }) rt hb
    · rw [effectOf_lw_inBounds rt hb]; exact effectOf_lw_inBounds (s := { s with latch := l }) rt hb
  | sw rt rs imm =>
    cases hb : inBounds (effectiveAddress s rs imm)
    · rw [effectOf_sw_outOfBounds rt hb]; exact effectOf_sw_outOfBounds (s := { s with latch := l }) rt hb
    · rw [effectOf_sw_inBounds rt hb]; exact effectOf_sw_inBounds (s := { s with latch := l }) rt hb

/-- Execute clears the flags first, so an instruction answers the same whatever latch it finds. -/
theorem exec_withLatch {i : Instr} {s t : State} (h : exec i s = .next t) (l : Latch) :
    ∃ l', exec i { s with latch := l } = .next { t with latch := l' } := by
  obtain ⟨l₀, h₀⟩ := exec_eq_effectOf i s
  obtain ⟨l', h'⟩ := exec_eq_effectOf i { s with latch := l }
  obtain rfl : { effectOf i s with latch := l₀ } = t := Host.Outcome.next.inj (h₀.symm.trans h)
  exact ⟨l', by rw [h', effectOf_withLatch]⟩

/-! ## The state that an instruction's arm acts on -/

@[simp] theorem beforeExecute_regs (i : Instr) (s : State) : (beforeExecute i s).regs = s.regs := by cases i <;> rfl
@[simp] theorem beforeExecute_pc (i : Instr) (s : State) : (beforeExecute i s).pc = s.pc := by cases i <;> rfl
@[simp] theorem beforeExecute_mem (i : Instr) (s : State) : (beforeExecute i s).mem = s.mem := by cases i <;> rfl
@[simp] theorem beforeExecute_status (i : Instr) (s : State) : (beforeExecute i s).status = s.status := by
  cases i <;> rfl

@[simp] theorem readReg_beforeExecute (i : Instr) (s : State) (r : RegIdx) :
    readReg (beforeExecute i s) r = readReg s r := readReg_congr (beforeExecute_regs i s) r

@[simp] theorem effectiveAddress_beforeExecute (i : Instr) (s : State) (rs : RegIdx) (imm : Imm16) :
    effectiveAddress (beforeExecute i s) rs imm = effectiveAddress s rs imm := by
  rw [effectiveAddress, readReg_beforeExecute, effectiveAddress]

@[simp] theorem effectiveAddress_advancePc (s : State) (rs : RegIdx) (imm : Imm16) :
    effectiveAddress (advancePc s) rs imm = effectiveAddress s rs imm := rfl

theorem beforeExecute_withLatch (i : Instr) (s : State) (l : Latch) :
    beforeExecute i { s with latch := l } = { beforeExecute i s with latch := l } := by cases i <;> rfl

/-- Fetch's advance, and the count of every instruction but the halt sentinel. -/
theorem beforeExecute_advancePc (i : Instr) (s : State) :
    beforeExecute i (advancePc s) =
      { s with pc := s.pc + 4, cycles := if i = .halt then s.cycles else s.cycles + 1 } := by
  rcases eq_or_ne i .halt with rfl | hne
  · rw [if_pos rfl]; rfl
  · rw [if_neg hne, beforeExecute_of_ne_halt hne]; rfl

/-! ## The step in each of its cases -/

/-- The bound halt (R112). -/
theorem step_of_outOfBounds {s : State} (hrun : s.status = .running) (hpc : inBounds s.pc = false) :
    step s = .next (haltMachine .bound s) := by
  simp [step, hrun, driverCycle, hpc]

theorem step_of_halted {s : State} {why : HaltReason} (h : s.status = .halted why) : step s = .fault (.halted why) := by
  rw [step, h]

theorem step_of_faulted {s : State} {info : MemFaultInfo} (h : s.status = .faulted info) :
    step s = .fault (.memFault info) := by
  rw [step, h]

/-- The bound check holds or fails, and the word fetched decodes or is rejected: each way the cycle ends in a state. -/
theorem exists_step_of_running {s : State} (hrun : s.status = .running) : ∃ t, step s = .next t := by
  cases hpc : inBounds s.pc with
  | false => exact ⟨_, step_of_outOfBounds hrun hpc⟩
  | true =>
    cases hdec : decodeWord (fetchWord s) with
    | error e => exact ⟨_, step_of_decodeWord_eq_error hrun hpc hdec⟩
    | ok i =>
      obtain ⟨l, hl⟩ := exec_eq_effectOf i (beforeExecute i (advancePc s))
      exact ⟨_, (step_of_decodeWord_eq_ok hrun hpc hdec).trans hl⟩

/-- The cases of `step_cases` with the instruction's effect in place of its arm. -/
theorem step_effect_cases {s t : State} (h : step s = .next t) :
    s.status = .running ∧
      ((inBounds s.pc = false ∧ t = haltMachine .bound s) ∨
       (inBounds s.pc = true ∧ ∃ i l, decodeWord (fetchWord s) = .ok i ∧
          t = { effectOf i (beforeExecute i (advancePc s)) with latch := l }) ∨
       (inBounds s.pc = true ∧ (∃ e, decodeWord (fetchWord s) = .error e) ∧
          t = clearLatchFlags (countCycle (advancePc s)))) := by
  obtain ⟨hrun, hbound | ⟨hpc, i, hdec, hexec⟩ | herror⟩ := step_cases h
  · exact ⟨hrun, .inl hbound⟩
  · obtain ⟨l, hl⟩ := exec_eq_effectOf i (beforeExecute i (advancePc s))
    exact ⟨hrun, .inr (.inl ⟨hpc, i, l, hdec, Host.Outcome.next.inj (hexec.symm.trans hl)⟩)⟩
  · exact ⟨hrun, .inr (.inr herror)⟩

/-- In each case of the cycle the step reads nothing of the latch that it starts with. -/
theorem step_withLatch {s t : State} (h : step s = .next t) (l : Latch) :
    ∃ l', step { s with latch := l } = .next { t with latch := l' } := by
  obtain ⟨hrun, ⟨hpc, rfl⟩ | ⟨hpc, i, hdec, hexec⟩ | ⟨hpc, ⟨e, hdec⟩, rfl⟩⟩ := step_cases h
  · exact ⟨l, step_of_outOfBounds (s := { s with latch := l }) hrun hpc⟩
  · obtain ⟨l', hl'⟩ := exec_withLatch hexec l
    rw [← beforeExecute_withLatch] at hl'
    exact ⟨l', (step_of_decodeWord_eq_ok (s := { s with latch := l }) hrun hpc hdec).trans hl'⟩
  · exact ⟨_, step_of_decodeWord_eq_error (s := { s with latch := l }) hrun hpc hdec⟩

/-! ## The obligations -/

/-- Settles O37, by the status: a running machine steps the same under any latch, and a stopped one has no step. -/
theorem latchIsNeverObserved : Obligations.LatchIsNeverObserved := by
  intro s l
  cases hs : s.status with
  | running =>
    obtain ⟨t, ht⟩ := exists_step_of_running hs
    rw [ht, ← hs]
    exact step_withLatch ht l
  | halted why =>
    rw [step_of_halted hs]
    exact step_of_halted rfl
  | faulted info =>
    rw [step_of_faulted hs]
    exact step_of_faulted rfl

/-- Settles O36, by the status. -/
theorem runningMachineStepsAndStoppedMachineDoesNot : Obligations.RunningMachineStepsAndStoppedMachineDoesNot :=
  fun _ => ⟨exists_step_of_running, fun _ => step_of_halted, fun _ => step_of_faulted⟩

/-- Settles O27: the four bytes at the pc are the word fetched. -/
theorem stepRunsTheDecodedInstruction : Obligations.StepRunsTheDecodedInstruction := by
  intro s i hrun hpc hdec
  rw [← beforeExecute_advancePc]
  exact step_of_decodeWord_eq_ok hrun ((inBounds_iff _).mpr hpc) hdec

/-- Settles O29, from the step at the sentinel. -/
theorem sentinelHaltIsNotCounted : Obligations.SentinelHaltIsNotCounted :=
  fun _ hrun hpc hzero => ⟨_, step_of_fetchWord_eq_zero hrun ((inBounds_iff _).mpr hpc) hzero, rfl, rfl, rfl,
    fun _ => rfl, fun _ => rfl, rfl⟩

/-- Settles O30, from the step past the bound. -/
theorem boundHaltChangesOnlyTheStatus : Obligations.BoundHaltChangesOnlyTheStatus :=
  fun _ hrun hpc => ⟨_, step_of_outOfBounds hrun ((inBounds_eq_false_iff _).mpr hpc), rfl, rfl, rfl, fun _ => rfl,
    fun _ => rfl, rfl⟩

end Sys2Proof.Machine
end

section
/-! What a step can change: the registers, the pc, memory and the status, each from what the instruction's effect does to it
(spec/10_state.md R23, R27, R32 and R33, spec/60_exceptions.md R201 and R202). -/

namespace Sys2Proof.Machine

open Sys2Proof.Claims

/-! ## The effect on each field -/

/-- An instruction writes no register but its destination (R23). -/
theorem effectOf_regs_of_ne_dest {i : Instr} {r : RegIdx} (h : destOf i ≠ some r) (s : State) :
    (effectOf i s).regs[r.toNat]'r.isLt = s.regs[r.toNat]'r.isLt := by
  have hframe (d : RegIdx) (v : Word) (hd : destOf i = some d) :
      (writeReg d v s).regs[r.toNat]'r.isLt = s.regs[r.toNat]'r.isLt :=
    registersSameBut_writeReg d v s r fun hr => h (hr ▸ hd)
  cases i with
  | halt => rfl
  | add | sub | addi => exact hframe _ _ rfl
  | beq =>
    rw [effectOf]
    split <;> rfl
  | lw =>
    rw [effectOf]
    split
    · exact hframe _ _ rfl
    · rfl
  | sw =>
    rw [effectOf]
    split <;> rfl

/-- Register 0 stays stored as 0: as a destination it is forced to 0, and no other write reaches it (R24). -/
theorem writeReg_regZero {s : State} (h : s.regs[0] = 0) (d : RegIdx) (v : Word) : (writeReg d v s).regs[0] = 0 := by
  rcases eq_or_ne d 0 with rfl | hd
  · exact (registerWritten_writeReg 0 v s).2 rfl
  · exact (registersSameBut_writeReg d v s 0 hd.symm).trans h

theorem effectOf_regZero {s : State} (h : s.regs[0] = 0) (i : Instr) : (effectOf i s).regs[0] = 0 := by
  cases i with
  | halt => exact h
  | add | sub | addi => exact writeReg_regZero h _ _
  | beq =>
    rw [effectOf]
    split <;> exact h
  | lw =>
    rw [effectOf]
    split
    · exact writeReg_regZero h _ _
    · exact h
  | sw =>
    rw [effectOf]
    split <;> exact h

/-- Only a taken BEQ writes the pc (R27). -/
theorem effectOf_pc_cases (i : Instr) (s : State) :
    (effectOf i s).pc = s.pc ∨
      ∃ rs rt imm, i = .beq rs rt imm ∧ readReg s rs = readReg s rt ∧ (effectOf i s).pc = branchTarget s.pc imm := by
  cases i with
  | halt | add | sub | addi => exact .inl rfl
  | beq rs rt imm =>
    by_cases heq : readReg s rs = readReg s rt
    · exact .inr ⟨rs, rt, imm, rfl, heq, by rw [effectOf_beq_taken heq, setPc_pc]⟩
    · exact .inl (by rw [effectOf_beq_not_taken heq])
  | lw | sw =>
    rw [effectOf]
    split <;> exact .inl rfl

/-- Only an SW in bounds writes memory (R32). -/
theorem effectOf_mem_cases (i : Instr) (s : State) :
    (effectOf i s).mem = s.mem ∨
      ∃ rt rs imm, i = .sw rt rs imm ∧ inBounds (effectiveAddress s rs imm) = true ∧
        (effectOf i s).mem = s.mem.writeWord (effectiveAddress s rs imm).toNat (readReg s rt) := by
  cases i with
  | halt | add | sub | addi => exact .inl rfl
  | beq | lw =>
    rw [effectOf]
    split <;> exact .inl rfl
  | sw rt rs imm =>
    cases hb : inBounds (effectiveAddress s rs imm)
    · exact .inl (by rw [effectOf_sw_outOfBounds rt hb, raiseMemFault_mem])
    · exact .inr ⟨rt, rs, imm, rfl, hb, by rw [effectOf_sw_inBounds rt hb]⟩

/-- Only the sentinel halts, and only an LW or SW out of bounds faults; then nothing but the status changes (R114, R201). -/
theorem effectOf_status_cases (i : Instr) (s : State) :
    (effectOf i s).status = s.status ∨ (i = .halt ∧ effectOf i s = haltMachine .sentinel s) ∨
      ∃ kind rt rs imm, (i = .lw rt rs imm ∧ kind = .load ∨ i = .sw rt rs imm ∧ kind = .store) ∧
        inBounds (effectiveAddress s rs imm) = false ∧
        effectOf i s = raiseMemFault ⟨kind, effectiveAddress s rs imm, s.pc - 4, encode i⟩ s := by
  cases i with
  | halt => exact .inr (.inl ⟨rfl, rfl⟩)
  | add | sub | addi => exact .inl rfl
  | beq =>
    rw [effectOf]
    split <;> exact .inl rfl
  | lw rt rs imm =>
    cases hb : inBounds (effectiveAddress s rs imm)
    · exact .inr (.inr ⟨.load, rt, rs, imm, .inl ⟨rfl, rfl⟩, hb, effectOf_lw_outOfBounds rt hb⟩)
    · exact .inl (by rw [effectOf_lw_inBounds rt hb, writeReg_status])
  | sw rt rs imm =>
    cases hb : inBounds (effectiveAddress s rs imm)
    · exact .inr (.inr ⟨.store, rt, rs, imm, .inr ⟨rfl, rfl⟩, hb, effectOf_sw_outOfBounds rt hb⟩)
    · exact .inl (by rw [effectOf_sw_inBounds rt hb])

/-! ## What a step keeps of each field -/

/-- A step keeps the stored zero of register 0 (R24). -/
theorem step_regZero {s t : State} (h : step s = .next t) (hzero : s.regs[0] = 0) : t.regs[0] = 0 := by
  obtain ⟨_, ⟨_, rfl⟩ | ⟨_, i, l, _, rfl⟩ | ⟨_, _, rfl⟩⟩ := step_effect_cases h
  · exact hzero
  · exact effectOf_regZero ((beforeExecute_regs i (advancePc s)).symm ▸ hzero) i
  · exact hzero

/-- The pc after a step that takes no branch, and after one that does. -/
theorem step_pc_cases {s t : State} (h : step s = .next t) :
    (inBounds s.pc = false ∧ t.pc = s.pc) ∨ (inBounds s.pc = true ∧ t.pc = s.pc + 4) ∨
      ∃ rs rt imm, inBounds s.pc = true ∧ decodeWord (fetchWord s) = .ok (.beq rs rt imm) ∧
        readReg s rs = readReg s rt ∧ t.pc = branchTarget (s.pc + 4) imm := by
  obtain ⟨_, ⟨hpc, rfl⟩ | ⟨hpc, i, l, hdec, rfl⟩ | ⟨hpc, _, rfl⟩⟩ := step_effect_cases h
  · exact .inl ⟨hpc, rfl⟩
  · obtain hkept | ⟨rs, rt, imm, rfl, heq, htarget⟩ := effectOf_pc_cases i (beforeExecute i (advancePc s))
    · exact .inr (.inl ⟨hpc, by simpa using hkept⟩)
    · exact .inr (.inr ⟨rs, rt, imm, hpc, hdec, by simpa using heq, by simpa using htarget⟩)
  · exact .inr (.inl ⟨hpc, rfl⟩)

/-- A step leaves memory alone or runs an SW in bounds (R32). -/
theorem step_mem_cases {s t : State} (h : step s = .next t) :
    t.mem = s.mem ∨
      ∃ rt rs imm, inBounds s.pc = true ∧ decodeWord (fetchWord s) = .ok (.sw rt rs imm) ∧
        inBounds (effectiveAddress s rs imm) = true ∧
        t.mem = s.mem.writeWord (effectiveAddress s rs imm).toNat (readReg s rt) := by
  obtain ⟨_, ⟨_, rfl⟩ | ⟨hpc, i, l, hdec, rfl⟩ | ⟨_, _, rfl⟩⟩ := step_effect_cases h
  · exact .inl rfl
  · obtain hkept | ⟨rt, rs, imm, rfl, hea, hmem⟩ := effectOf_mem_cases i (beforeExecute i (advancePc s))
    · exact .inl (by simpa using hkept)
    · exact .inr ⟨rt, rs, imm, hpc, hdec, by simpa using hea, by simpa using hmem⟩
  · exact .inl rfl

/-- After a step the machine runs on, stands at one of the two halts, or has faulted at an LW or SW out of bounds, with all
else as the cycle's Fetch and count left it. -/
theorem step_status_cases {s t : State} (h : step s = .next t) :
    t.status = .running ∨ (inBounds s.pc = false ∧ t = haltMachine .bound s) ∨
      (inBounds s.pc = true ∧ fetchWord s = 0 ∧ t = haltMachine .sentinel (advancePc s)) ∨
      ∃ kind rt rs imm l,
        (decodeWord (fetchWord s) = .ok (.lw rt rs imm) ∧ kind = .load ∨
          decodeWord (fetchWord s) = .ok (.sw rt rs imm) ∧ kind = .store) ∧
        inBounds s.pc = true ∧ inBounds (effectiveAddress s rs imm) = false ∧
        t = { raiseMemFault ⟨kind, effectiveAddress s rs imm, s.pc, fetchWord s⟩ (countCycle (advancePc s)) with
          latch := l } := by
  obtain ⟨hrun, hbound | ⟨hpc, i, l, hdec, rfl⟩ | ⟨_, _, rfl⟩⟩ := step_effect_cases h
  · exact .inr (.inl hbound)
  · obtain hkept | ⟨rfl, _⟩ | ⟨kind, rt, rs, imm, hi, hea, heff⟩ :=
      effectOf_status_cases i (beforeExecute i (advancePc s))
    · exact .inl (hkept.trans (by simpa using hrun))
    · have hzero : fetchWord s = 0 := (decodeWord_eq_ok_halt_iff _).mp hdec
      have hstep := step_of_fetchWord_eq_zero hrun hpc hzero
      exact .inr (.inr (.inl ⟨hpc, hzero, Host.Outcome.next.inj (h.symm.trans hstep)⟩))
    · have hne : i ≠ .halt := by rintro rfl; simp at hi
      rw [effectiveAddress_beforeExecute, effectiveAddress_advancePc] at hea
      rw [heff, encode_of_decodeWord_eq_ok hdec, effectiveAddress_beforeExecute, effectiveAddress_advancePc,
        beforeExecute_pc, advancePc_pc, add_sub_cancel_right, beforeExecute_of_ne_halt hne, hdec]
      simp only [Except.ok.injEq]
      exact .inr (.inr (.inr ⟨kind, rt, rs, imm, l, hi, hpc, hea, rfl⟩))
  · exact .inl hrun

/-- A step counts the cycle once or not at all (R33). -/
theorem step_cycles_le {s t : State} (h : step s = .next t) : s.cycles ≤ t.cycles ∧ t.cycles ≤ s.cycles + 1 := by
  have hcount := stepCountsEveryExecutedWord s t h
  split at hcount <;> omega

/-! ## The obligations -/

/-- Settles O26, by the cases of the step: only a decoded instruction writes a register. -/
theorem stepWritesOnlyTheDestinationRegister : Obligations.StepWritesOnlyTheDestinationRegister := by
  refine fun s t h => ⟨fun r hr => ?_, readReg_zero t, step_regZero h⟩
  obtain ⟨_, ⟨_, rfl⟩ | ⟨_, i, l, hdec, rfl⟩ | ⟨_, _, rfl⟩⟩ := step_effect_cases h
  · rfl
  · simpa using effectOf_regs_of_ne_dest (hr i hdec) (beforeExecute i (advancePc s))
  · rfl

/-- Settles O33: the step's three ways to leave the pc exclude one another. -/
theorem pcChangesOnlyByFetchAndTakenBranch : Obligations.PcChangesOnlyByFetchAndTakenBranch := by
  intro s t h
  refine ⟨fun hout => ?bound, fun hin => ⟨fun rs rt imm hdec heq => ?taken, fun hnot => ?notTaken⟩⟩
  case bound =>
    have hpc : inBounds s.pc = false := (inBounds_eq_false_iff _).mpr hout
    obtain ⟨_, hkept⟩ | ⟨hin, _⟩ | ⟨_, _, _, hin, _⟩ := step_pc_cases h
    · exact hkept
    all_goals simp [hpc] at hin
  case taken =>
    have hstep := step_beq_taken (step_cases h).1 ((inBounds_iff _).mpr hin) hdec heq
    rw [← Host.Outcome.next.inj (hstep.symm.trans h), setPc_pc, branchTarget_eq]
  case notTaken =>
    obtain ⟨hout, _⟩ | ⟨_, hnext⟩ | ⟨rs, rt, imm, _, hdec, heq, _⟩ := step_pc_cases h
    · simp [(inBounds_iff _).mpr hin] at hout
    · exact hnext
    · exact absurd heq (hnot rs rt imm hdec)

/-- Settles O34: a byte outside the four of a store reads as before. -/
theorem onlyAStoreChangesMemory : Obligations.OnlyAStoreChangesMemory := by
  intro s t a h hne
  obtain hkept | ⟨rt, rs, imm, _, hdec, hea, hmem⟩ := step_mem_cases h
  · exact absurd (by rw [hkept]) hne
  · have hin : (effectiveAddress s rs imm).toNat ≤ a ∧ a < (effectiveAddress s rs imm).toNat + 4 := by
      by_contra hout
      exact hne (by rw [hmem, Memory.read_writeWord_of_not_mem _ _ hout])
    exact ⟨rt, rs, imm, hdec, (inBounds_iff _).mp hea, hin⟩

/-- Settles O35: of the statuses that a step can leave, one is a fault. -/
theorem onlyLoadsAndStoresFaultAndPrecisely : Obligations.OnlyLoadsAndStoresFaultAndPrecisely := by
  intro s t info h hinfo
  obtain hrun | ⟨_, rfl⟩ | ⟨_, _, rfl⟩ | ⟨kind, rt, rs, imm, l, hdec, hpc, hea, rfl⟩ := step_status_cases h
  · rw [hrun] at hinfo; cases hinfo
  · cases hinfo
  · cases hinfo
  · cases hinfo
    exact ⟨⟨rt, rs, imm, hdec, rfl⟩, (inBounds_eq_false_iff _).mp hea, rfl, rfl, fun _ => rfl, fun _ => rfl, rfl, rfl⟩

/-- Settles O39, by induction on the number of steps. -/
theorem cycleCounterIsMonotoneOverRuns : Obligations.CycleCounterIsMonotoneOverRuns := by
  intro k
  induction k with
  | zero =>
    rintro s _ rfl
    exact ⟨le_rfl, le_rfl⟩
  | succ k ih =>
    rintro s t ⟨u, hstep, hrest⟩
    obtain ⟨hlo, hhi⟩ := step_cycles_le hstep
    obtain ⟨hlo', hhi'⟩ := ih u t hrest
    exact ⟨by omega, by omega⟩

end Sys2Proof.Machine
end

section
/-! The machine's invariant: reset meets it, every step keeps it, every run from the launch of an image stays in it; and a
memory without LW and SW makes every run safe (spec/10_state.md R24 and R28, spec/60_exceptions.md R202). -/

namespace Sys2Proof.Machine

open Sys2Proof.Claims

/-! ## What every step keeps holds of every state of a run -/

theorem reachesIn_keeps {P : State → Prop} (hstep : ∀ s t, P s → step s = .next t → P t) {k : Nat} {s t : State}
    (hs : P s) (h : reachesIn k s t) : P t := by
  induction k generalizing s with
  | zero =>
    obtain rfl : s = t := h
    exact hs
  | succ k ih =>
    obtain ⟨u, hu, hrest⟩ := h
    exact ih (hstep s u hs hu) hrest

/-! ## The parts of the invariant -/

/-- Fetch's advance and a branch target keep the pc a multiple of 4 (R28). -/
theorem step_pcAligned {s t : State} (h : step s = .next t) (hpc : s.pc.toNat % 4 = 0) : t.pc.toNat % 4 = 0 := by
  have hnext : (s.pc + 4).toNat % 4 = 0 := by bv_omega
  obtain ⟨_, hkept⟩ | ⟨_, hfetch⟩ | ⟨_, _, imm, _, _, _, htarget⟩ := step_pc_cases h
  · rw [hkept]; exact hpc
  · rw [hfetch]; exact hnext
  · rw [htarget]; exact branchTarget_mod_four hnext imm

/-- A store in bounds is a word write inside the memory. -/
theorem step_memWf {s t : State} (h : step s = .next t) (hmem : s.mem.wf) : t.mem.wf := by
  obtain hkept | ⟨_, _, _, _, _, hea, hwrite⟩ := step_mem_cases h
  · rw [hkept]; exact hmem
  · rw [hwrite]; exact Memory.writeWord_wf hmem _ (inBounds_lt hea)

theorem statusOk_of_running {s : State} (h : s.status = .running) : s.statusOk := by
  rw [State.statusOk, h]
  trivial

/-- The status a step leaves is true, whatever the state before it. -/
theorem step_statusOk {s t : State} (h : step s = .next t) : t.statusOk := by
  have hback : s.pc + 4 - 4 = s.pc := add_sub_cancel_right s.pc 4
  obtain hrun | ⟨hpc, rfl⟩ | ⟨hpc, hzero, rfl⟩ | ⟨kind, rt, rs, imm, l, _, hpc, hea, rfl⟩ := step_status_cases h
  · exact statusOk_of_running hrun
  · exact hpc
  · show inBounds (s.pc + 4 - 4) = true ∧ s.mem.readWord (s.pc + 4 - 4).toNat = 0
    rw [hback]
    exact ⟨hpc, hzero⟩
  · exact ⟨hea, hback.symm, hpc, rfl⟩

/-- The four parts of the invariant after a step. -/
theorem step_inv {s t : State} (hs : s.Inv) (h : step s = .next t) : t.Inv :=
  ⟨step_regZero h hs.regZero, step_pcAligned h hs.pcAligned, step_memWf h hs.memWf, step_statusOk h⟩

/-- The load of an image changes memory alone, and keeps it canonical. -/
theorem launch_inv (image : List Word) : (launch image).Inv :=
  ⟨State.reset_reg 0, rfl, loadWords_wf image State.reset_mem_wf 0, trivial⟩

/-! ## A memory without LW and SW -/

/-- No word at a multiple of 4 decodes to an LW or an SW: the premise of O45 on memory. -/
def NoAccessInMemory (m : Memory) : Prop :=
  ∀ a, a ≤ 4092 → a % 4 = 0 → ∀ rt rs imm,
    decodeWord (m.readWord a) ≠ .ok (.lw rt rs imm) ∧ decodeWord (m.readWord a) ≠ .ok (.sw rt rs imm)

/-- The invariant of a run from `s` that meets no LW and no SW. -/
structure UntouchedSince (s u : State) : Prop where
  pcAligned : u.pc.toNat % 4 = 0
  notFaulted : ∀ info, u.status ≠ .faulted info
  memSame : u.mem = s.mem

/-- An aligned fetch in bounds reads one of the words that the premise speaks of. -/
theorem fetchWord_noAccess {s u : State} (hno : NoAccessInMemory s.mem) (hu : UntouchedSince s u)
    (hpc : inBounds u.pc = true) (rt rs : RegIdx) (imm : Imm16) :
    decodeWord (fetchWord u) ≠ .ok (.lw rt rs imm) ∧ decodeWord (fetchWord u) ≠ .ok (.sw rt rs imm) := by
  rw [fetchWord, hu.memSame]
  exact hno _ ((inBounds_iff _).mp hpc) hu.pcAligned rt rs imm

/-- With no LW to fetch and no SW, a step neither faults nor stores. -/
theorem step_untouchedSince {s u v : State} (hno : NoAccessInMemory s.mem) (hu : UntouchedSince s u)
    (h : step u = .next v) : UntouchedSince s v := by
  refine ⟨step_pcAligned h hu.pcAligned, fun info hinfo => ?_, ?_⟩
  · obtain hrun | ⟨_, rfl⟩ | ⟨_, _, rfl⟩ | ⟨_, rt, rs, imm, _, hdec, hpc, _, _⟩ := step_status_cases h
    · rw [hrun] at hinfo; cases hinfo
    · cases hinfo
    · cases hinfo
    · obtain ⟨hlw, hsw⟩ := fetchWord_noAccess hno hu hpc rt rs imm
      exact hdec.elim (fun hd => hlw hd.1) (fun hd => hsw hd.1)
  · obtain hkept | ⟨rt, rs, imm, hpc, hdec, _, _⟩ := step_mem_cases h
    · exact hkept.trans hu.memSame
    · exact absurd hdec (fetchWord_noAccess hno hu hpc rt rs imm).2

/-! ## The obligations -/

/-- Settles O42: the empty image's launch is the reset state. -/
theorem resetMeetsTheInvariant : Obligations.ResetMeetsTheInvariant := launch_inv []

/-- Settles O43, part by part. -/
theorem stepKeepsTheInvariant : Obligations.StepKeepsTheInvariant := fun _ _ => step_inv

/-- Settles O44, by induction over the run from the launched state. -/
theorem reachableStatesMeetTheInvariant : Obligations.ReachableStatesMeetTheInvariant :=
  fun _ ⟨image, _, h⟩ => reachesIn_keeps stepKeepsTheInvariant (launch_inv image) h

/-- Settles O45, by induction over the run: no step of it finds an LW or an SW to fetch. -/
theorem noLoadOrStoreInMemoryMeansSafeRun : Obligations.NoLoadOrStoreInMemoryMeansSafeRun := by
  intro s hpc hstatus hno
  have hrun (k : Nat) (t : State) (h : reachesIn k s t) : UntouchedSince s t :=
    reachesIn_keeps (P := UntouchedSince s) (fun _ _ => step_untouchedSince hno) ⟨hpc, hstatus, rfl⟩ h
  exact ⟨fun k t info h => (hrun k t h).notFaulted info, fun k t h a => by rw [(hrun k t h).memSame]⟩

end Sys2Proof.Machine
end
